-- ==== Sys2Proof/Word.lean ====
section
/-! DEFINITION. The machine's two word types (R7, R21, R60): bytes and 64-bit unsigned words. -/

namespace Sys2Proof

/-- A byte: the unit of addressing, of the instruction stream and of the output (R60, R90, R42). -/
abbrev Byte := BitVec 8

/-- A 64-bit unsigned word: an `Int` payload, an address, the pc (R23, R32, R60). -/
abbrev Word := BitVec 64

end Sys2Proof
end

