-- ==== Sys2Proof/Config.lean ====
section
/-! DEFINITION. What an implementation fixes and the spec leaves OPEN (R8, R41, spec/93): constants with no body, so
no claim can rest on a value of theirs. The parameters the spec gives a default (UNBOUND_POLICY, PC_INDEX,
OPCODE_MAP) are definitions where they are used: `unboundPolicy` (Machine/Ops.lean), `pcIndex`
(Machine/Operands.lean), `opcodeMap` (Decode.lean). -/

namespace Sys2Proof

/-- What a dispatch slot with no handler does (R4, R95, D1): the strict build raises InvalidOpcode, the permissive
build treats the byte as a 1-byte NOP. -/
inductive UnboundPolicy where
  | strict
  | permissive
deriving DecidableEq, Repr

/-- The predicate of comparison code 10, one of the four undefined "bitwise-inverse combinations" (R176, D18).
Log 4. -/
opaque Config.cmp10 : Word → Word → Bool

/-- The predicate of comparison code 11 (R176, D18). Log 4. -/
opaque Config.cmp11 : Word → Word → Bool

/-- The predicate of comparison code 12 (R176, D18). Log 4. -/
opaque Config.cmp12 : Word → Word → Bool

/-- The predicate of comparison code 13 (R176, D18). Log 4. -/
opaque Config.cmp13 : Word → Word → Bool

/-- `MAGIC`, the value INFO code 0 writes (R8, R202, D24). Log 5. -/
opaque Config.magic : Word

/-- `HEAP_CAPACITY`, the most heap bytes the block can allocate in total (R8, R65, D25). Log 6. -/
opaque Config.heapCapacity : Word

/-- The random source (R43, R213, D23): the n-th draw since construction, any value. Log 7. -/
opaque Config.draw : Nat → Word

/-- The pc after the n-th fault since construction: "it may be any value" (R225, D10, I9). Log 8. -/
opaque Config.faultPc : Nat → Word

/-- `cur_op` before the first opcode fetch: "unspecified (any byte; read only by diagnostics)" (R37, R46, D41, I10).
Log 9. -/
opaque Config.curOpAtReset : Byte

end Sys2Proof
end

