-- ==== Sys2Proof/Machine/State.lean ====
section
/-! DEFINITION. The machine's state as plain data: everything 10_state.md names (R20 to R46), the outcomes of a step
and the state after reset. -/

namespace Sys2Proof.Machine

/-- A tagged register value (R21). -/
inductive Value where
  /-- An unsigned 64-bit integer (R23). -/
  | int (v : Word)
  /-- 64 bits no instruction interprets (R24). -/
  | float (b : BitVec 64)
  /-- A byte string of any length (R25). -/
  | bytes (s : List Byte)
  /-- No write has reached the register (R21, D11). -/
  | unwritten
deriving DecidableEq, Repr

/-- The bytes of a segment: (absolute address, byte) cells in the canonical form of `Memory.wf`. An unlisted address
reads 0x00, as a heap byte nothing has written does (R34, R62). Log 12. -/
abbrev Memory := List Host.Cell

/-- A heap segment (R34): its first address, its size in bytes, its bytes. -/
structure Segment where
  start : Word
  size : Word
  bytes : Memory
deriving DecidableEq, Repr

/-- A fault kind with the information it records (R221). -/
inductive FaultCause where
  /-- A fetch with `pc >= image_size`: the pc at the fetch. -/
  | outOfBounds (pc : Word)
  /-- A fetch or a memory access with no image. -/
  | invalidMemory
  /-- A register byte that names no register: the byte. -/
  | invalidRegister (reg : Byte)
  /-- A register read as a type its tag is not, or the PC in a string or copy position: the register byte. -/
  | typeMismatch (reg : Byte)
  /-- A dispatch slot with no handler, strict build: the opcode byte. -/
  | invalidOpcode (op : Byte)
  /-- A LOAD_INT_MEM size of 0 or above 8: the size byte. -/
  | invalidSize (size : Byte)
  /-- A zero divisor. -/
  | divideByZero
  /-- A write into the image: the address. -/
  | readOnlyViolation (addr : Word)
  /-- An address no region owns: the address. -/
  | invalidHeapAccess (addr : Word)
  /-- An INFO code above 3: the code. -/
  | unimplementedInfoEntry (code : Byte)
  /-- A comparison code above 15: the code. -/
  | invalidComparison (code : Byte)
  /-- An allocation past HEAP_CAPACITY or past 2^64 - 1: the requested size. -/
  | heapExhausted (size : Word)
deriving DecidableEq, Repr

/-- The fault record (R222): the kind with its information, and `cur_op`. -/
structure FaultRecord where
  cause : FaultCause
  op : Byte
deriving DecidableEq, Repr

/-- The run status (R38). -/
inductive Status where
  | running
  | halted
  | faulted (f : FaultRecord)
deriving DecidableEq, Repr

/-- The state of the engine (10_state.md), of the output sink (R42), and three fields of the model's own. -/
structure State where
  /-- `R[0..15]` (R20, R21). -/
  regs : Vector Value 16
  /-- The program counter (R32). -/
  pc : Word
  /-- The program image (R33); its length is `image_size`. -/
  image : Option (List Byte)
  /-- The heap segments, in allocation order (R35). -/
  segments : List Segment
  /-- The allocation cursor (R35). -/
  cursor : Word
  /-- The instruction counter (R36). -/
  tick : Word
  /-- The current-opcode latch `cur_op` (R37). -/
  curOp : Byte
  /-- The run status (R38). -/
  status : Status
  /-- The debug-trace flag (R39). -/
  debug : Bool
  /-- The output sink's bytes so far, outside the block (R42). -/
  out : List Byte
  /-- The MODEL's own: how many random draws were taken, the index of the next free value (R43). Log 7. -/
  drawCount : Nat
  /-- The MODEL's own: how many faults were taken, the index of the next free pc (R225). Log 8. -/
  faultCount : Nat
  /-- The MODEL's own: an opcode was fetched since the last construct or load, so host writes are over (R253,
  R254). Log 19. -/
  stepped : Bool
deriving DecidableEq, Repr

/-- Why a step has no next state. Every fault the SPEC names is a next state with `status = faulted` (R222, R225);
these are the two states in which the spec gives `step` no move (R254, I12). -/
inductive Fault where
  /-- Raised by `step` while `status` is Halted: stuck until the host's `load` (R254). Safe: the spec has no
  transition either. -/
  | stuckHalted
  /-- Raised by `step` while `status` is Faulted: stuck until the host's `load` (R254). Safe: the spec has no
  transition either. -/
  | stuckFaulted
deriving DecidableEq, Repr

/-- What the model does not admit. -/
inductive Refusal where
  /-- Raised by no instruction of this model: every row of the opcode table has its meaning. Safe. -/
  | notModelled (mnemonic : String)
  /-- Raised by the host operations `hostConstruct` and `hostLoad`: an image of 2^64 bytes or more (R33, I21).
  Safe: the spec refuses it. -/
  | imageTooLong
  /-- Raised by the host operations `hostPut` and `hostLoad`: a register write or a replacement of the image between
  the steps of one run (R253, R254, I14). Safe: the spec refuses it. -/
  | hostWriteDuringRun
deriving DecidableEq, Repr

/-- The state right after reset (R46, R250): `construct` over the empty image. A program comes from outside, by
`construct` or `load` (log 10). -/
def State.reset : State where
  regs := Vector.replicate 16 .unwritten
  pc := 0
  image := some []
  segments := []
  cursor := 0
  tick := 0
  curOp := Config.curOpAtReset
  status := .running
  debug := false
  out := []
  drawCount := 0
  faultCount := 0
  stepped := false

end Sys2Proof.Machine
end

