-- ==== Sys2Proof/Machine/Ops.lean ====
section
/-! DEFINITION. The named operations every instruction is written over: the updates of State, taking a fault and
leaving one, the combined address space (20_memory.md), allocation, the output and random ports. -/

namespace Sys2Proof.Machine

/-- The outcome of an instruction. -/
abbrev StepResult := Host.Outcome State Fault Refusal

/-- `UNBOUND_POLICY` (R8): this spec fixes the strict variant (R4, D1). Log 1. -/
def unboundPolicy : UnboundPolicy := .strict

/-! ## Updates of State -/

/-- `pc <- target` (R10). -/
def State.setPc (s : State) (target : Word) : State := { s with pc := target }

/-- A write to a general register replaces its tag and its payload (R22). -/
def State.setReg (s : State) (i : Nat) (v : Value) (h : i < 16) : State := { s with regs := s.regs.set i v h }

/-- `halt` (R10, R38). -/
def State.halt (s : State) : State := { s with status := .halted }

/-- `emit(bytes)`: append to the output sink (R42). -/
def State.emit (s : State) (bs : List Byte) : State := { s with out := s.out ++ bs }

/-- One draw of the random source was taken (R43). -/
def State.drawn (s : State) : State := { s with drawCount := s.drawCount + 1 }

/-- The bookkeeping of `step` after the opcode fetch: `cur_op <- op`, `tick <- tick + 1` modulo 2^64 (R102). -/
def State.countOpcode (s : State) (op : Byte) : State := { s with curOp := op, tick := s.tick + 1, stepped := true }

/-! ## Taking a fault, and leaving one -/

/-- `raise E(info)` (R222, R225, R228): `status <- Faulted(E, info, cur_op)`; the pc is any value from here on (D10);
everything else is as it was. Control goes to the host. Log 8, log 11. -/
def State.raise (s : State) (c : FaultCause) : State :=
  { s with status := .faulted ⟨c, s.curOp⟩, pc := Config.faultPc s.faultCount, faultCount := s.faultCount + 1 }

/-- The host's `load` (R251), the one way out of a fault or a halt (R229, R235): the image is replaced, `pc <- 0`,
`status <- Running`, nothing else changes. -/
def State.load (s : State) (image : List Byte) : State :=
  { s with image := some image, pc := 0, status := .running, stepped := false }

/-- The numeric code of a fault kind, for a read-out of `status` (R221, D40). -/
def FaultCause.code : FaultCause → Nat
  | .outOfBounds _ => 1
  | .invalidMemory => 2
  | .invalidRegister _ => 3
  | .typeMismatch _ => 4
  | .invalidOpcode _ => 5
  | .invalidSize _ => 6
  | .divideByZero => 7
  | .readOnlyViolation _ => 8
  | .invalidHeapAccess _ => 9
  | .unimplementedInfoEntry _ => 10
  | .invalidComparison _ => 11
  | .heapExhausted _ => 12

/-- A handler's end: the state it computed, or the fault it raised. A fault leaves the state the handler started
from (R224). -/
def State.complete (s : State) : Except FaultCause State → StepResult
  | .ok t => .next t
  | .error c => .next (s.raise c)

/-- A dispatch slot with no handler (R95, R102), under either build variant (R4). -/
def State.unbound (s : State) (policy : UnboundPolicy) (op : Byte) : State :=
  match policy with
  | .strict => s.raise (.invalidOpcode op)
  | .permissive => s

/-! ## The bytes of a segment -/

/-- The byte at an address; an unlisted address reads 0x00 (R34, R62). -/
def Memory.read : Memory → Nat → Byte
  | [], _ => 0
  | (b, v) :: m, a => if a = b then v else Memory.read m a

/-- One cell in front, unless its byte is the one an unlisted address reads as. -/
def Memory.cons (a : Nat) (v : Byte) (m : Memory) : Memory := if v = 0 then m else (a, v) :: m

/-- The byte at an address replaced, in canonical form: 0x00 is not listed. -/
def Memory.write : Memory → Nat → Byte → Memory
  | [], a, v => Memory.cons a v []
  | (b, w) :: m, a, v =>
    if a < b then Memory.cons a v ((b, w) :: m)
    else if a = b then Memory.cons a v m
    else (b, w) :: Memory.write m a v

/-- The canonical form from an address on: addresses strictly rising, no byte 0x00, all below `hi`. -/
def Memory.wfFrom (lo hi : Nat) : Memory → Bool
  | [] => true
  | (a, v) :: m => decide (lo ≤ a) && decide (a < hi) && decide (v ≠ 0) && Memory.wfFrom (a + 1) hi m

/-- The canonical form of a segment's bytes that lie in `[lo, hi)`. -/
def Memory.wf (lo hi : Nat) (m : Memory) : Bool := Memory.wfFrom lo hi m

/-! ## The combined address space -/

/-- `image_size` as a number of bytes (R33). -/
def State.imageLength (s : State) : Nat := (s.image.getD []).length

/-- `image_size` as a word (R202). -/
def State.imageSize (s : State) : Word := BitVec.ofNat 64 s.imageLength

/-- `contains(addr)`: `start <= addr < start + size` (R34). -/
def Segment.contains (g : Segment) (a : Word) : Bool :=
  decide (g.start.toNat ≤ a.toNat) && decide (a.toNat < g.start.toNat + g.size.toNat)

/-- The region that owns an address (R60, R61). -/
inductive Region where
  | image (bytes : List Byte)
  | heap (g : Segment)
deriving DecidableEq, Repr

/-- `resolve(addr)` (R61): the image first, then the first segment that contains the address. -/
def State.resolve (s : State) (a : Word) : Except FaultCause Region :=
  match s.image with
  | none => .error .invalidMemory
  | some img =>
    if a.toNat < img.length then .ok (.image img)
    else match s.segments.find? (·.contains a) with
      | some g => .ok (.heap g)
      | none => .error (.invalidHeapAccess a)

/-- `MemRead(addr, 1)` (R62). -/
def State.memRead (s : State) (a : Word) : Except FaultCause Byte :=
  match s.resolve a with
  | .ok (.image img) => .ok (img.getD a.toNat 0)
  | .ok (.heap g) => .ok (Memory.read g.bytes a.toNat)
  | .error c => .error c

/-- The first segment that contains an address, with the byte there replaced (R63). -/
def writeSegments : List Segment → Word → Byte → List Segment
  | [], _, _ => []
  | g :: gs, a, v =>
    if g.contains a then { g with bytes := Memory.write g.bytes a.toNat v } :: gs
    else g :: writeSegments gs a v

/-- `MemWrite(addr, 1, v)` (R63): the block's interface, which no instruction of the closed set reaches (R64). -/
def State.memWrite (s : State) (a : Word) (v : Byte) : Except FaultCause State :=
  match s.resolve a with
  | .ok (.image _) => .error (.readOnlyViolation a)
  | .ok (.heap _) => .ok { s with segments := writeSegments s.segments a v }
  | .error c => .error c

/-- A read of n bytes in rising address order, the lowest address most significant, after the bytes already in `acc`
(R67, R70, R131). -/
def State.memReadBE (s : State) : Nat → Word → Word → Except FaultCause Word
  | 0, _, acc => .ok acc
  | n + 1, a, acc => do
    let b ← s.memRead a
    s.memReadBE n (a + 1) (acc <<< 8 ||| b.setWidth 64)

/-! ## The heap -/

/-- `heap_total` as a number of bytes: the sum of the sizes of all segments (R35). -/
def heapTotal (gs : List Segment) : Nat := (gs.map (·.size.toNat)).sum

/-- `allocate(n)` under a heap capacity (R65): one zero-filled segment at the cursor, or HeapExhausted. The sums are
exact, not modulo 2^64. -/
def State.allocateWith (capacity : Word) (s : State) (n : Word) : Except FaultCause State :=
  if heapTotal s.segments + n.toNat > capacity.toNat ∨ s.cursor.toNat + n.toNat > 2 ^ 64 - 1 then
    .error (.heapExhausted n)
  else
    .ok { s with segments := s.segments ++ [⟨s.cursor, n, []⟩], cursor := s.cursor + n }

/-- `allocate(n)` of this block, under `HEAP_CAPACITY` (R65, D25). Log 6. -/
def State.allocate (s : State) (n : Word) : Except FaultCause State := s.allocateWith Config.heapCapacity n

end Sys2Proof.Machine
end

