-- ==== Sys2Proof/Machine/Operands.lean ====
section
/-! DEFINITION. The operand forms: typed register accessors with the PC sentinel (R26 to R30), immediates and
displacements (R104, R105), the code bytes (R107, R108), INFO entries (R202), the decimal numeral (R141). -/

namespace Sys2Proof.Machine

/-- `PC_INDEX`: the register-index byte that selects the pc (R8, D6). Log 3. -/
def pcIndex : Byte := 0x10

/-- `getInt(i)` (R26). -/
def State.getInt (s : State) (i : Byte) : Except FaultCause Word :=
  if h : i.toNat < 16 then
    match s.regs[i.toNat] with
    | .int v => .ok v
    | _ => .error (.typeMismatch i)
  else if i = pcIndex then .ok s.pc
  else .error (.invalidRegister i)

/-- `putInt(i, v)` (R27). -/
def State.putInt (s : State) (i : Byte) (v : Word) : Except FaultCause State :=
  if h : i.toNat < 16 then .ok (s.setReg i.toNat (.int v) h)
  else if i = pcIndex then .ok (s.setPc v)
  else .error (.invalidRegister i)

/-- `getStr(i)` (R28). -/
def State.getStr (s : State) (i : Byte) : Except FaultCause (List Byte) :=
  if h : i.toNat < 16 then
    match s.regs[i.toNat] with
    | .bytes bs => .ok bs
    | _ => .error (.typeMismatch i)
  else if i = pcIndex then .error (.typeMismatch i)
  else .error (.invalidRegister i)

/-- `putStr(i, s)` (R29). -/
def State.putStr (s : State) (i : Byte) (bs : List Byte) : Except FaultCause State :=
  if h : i.toNat < 16 then .ok (s.setReg i.toNat (.bytes bs) h)
  else if i = pcIndex then .error (.typeMismatch i)
  else .error (.invalidRegister i)

/-- The source of `copyReg`: any tag; the PC and an invalid index fault (R30). -/
def State.getAny (s : State) (i : Byte) : Except FaultCause Value :=
  if h : i.toNat < 16 then .ok s.regs[i.toNat]
  else if i = pcIndex then .error (.typeMismatch i)
  else .error (.invalidRegister i)

/-- The destination of `copyReg` (R30). -/
def State.putAny (s : State) (i : Byte) (v : Value) : Except FaultCause State :=
  if h : i.toNat < 16 then .ok (s.setReg i.toNat v h)
  else if i = pcIndex then .error (.typeMismatch i)
  else .error (.invalidRegister i)

/-- `copyReg(d, s)`: the source is checked first (R30). -/
def State.copyReg (s : State) (dst src : Byte) : Except FaultCause State := do
  let v ← s.getAny src
  s.putAny dst v

/-- An `imm<w>` field, zero-extended (R104, D12). -/
def immediate {w : Nat} (v : BitVec w) : Word := v.setWidth 64

/-- A `disp<w>` field, sign-extended (R105, R9). -/
def displacement {w : Nat} (v : BitVec w) : Word := v.signExtend 64

/-- A relative jump's target: the next-instruction address plus the displacement, modulo 2^64 (R170). -/
def State.relative {w : Nat} (s : State) (disp : BitVec w) : Word := s.pc + displacement disp

/-- A `size` field: 1 to 8 bytes, else InvalidSize (R107, D13). -/
def checkSize (n : Byte) : Except FaultCause Nat :=
  if n = 0 ∨ 8 < n.toNat then .error (.invalidSize n) else .ok n.toNat

/-- The INFO table (R202, D24): magic constant, tick count, heap bytes allocated, image length; else
UnimplementedInfoEntry (R108). -/
def State.infoEntry (s : State) (k : Byte) : Except FaultCause Word :=
  match k.toNat with
  | 0 => .ok Config.magic
  | 1 => .ok s.tick
  | 2 => .ok (BitVec.ofNat 64 (heapTotal s.segments))
  | 3 => .ok s.imageSize
  | _ => .error (.unimplementedInfoEntry k)

/-- The base-10 digits of n as ASCII bytes, most significant first, in front of `acc`; at most `fuel` of them. -/
def decimalDigits : Nat → Nat → List Byte → List Byte
  | 0, _, acc => acc
  | fuel + 1, n, acc =>
    let acc' := BitVec.ofNat 8 (0x30 + n % 10) :: acc
    if n / 10 = 0 then acc' else decimalDigits fuel (n / 10) acc'

/-- `decimal(v)` (R141): a 64-bit value has at most 20 digits. -/
def decimal (v : Word) : List Byte := decimalDigits 20 v.toNat []

end Sys2Proof.Machine
end

