-- ==== Sys2Proof/Machine/HeapInfo.lean ====
section
/-! DEFINITION. Heap allocation and the info query (44_heap_info.md). -/

namespace Sys2Proof.Machine

/-- HEAP (R200). -/
def execHeap (r : Byte) (s : State) : StepResult :=
  s.complete do
    let n ← s.getInt r
    s.allocate n

/-- INFO: the code is checked before the destination (R201, R223). -/
def execInfo (d k : Byte) (s : State) : StepResult :=
  s.complete do
    let v ← s.infoEntry k
    s.putInt d v

end Sys2Proof.Machine
end

