-- ==== Sys2Proof/Syntax.lean ====
section
/-! DEFINITION. The syntax of the closed instruction set (R2, R93): the 37 opcode classes and the 38 instructions
of spec/opcode_table.json, each with its operands as raw fields (R91, R92). -/

namespace Sys2Proof

/-- The mnemonic classes that own an opcode byte, in the order of R93. LOAD_STR and STORE_STR are one class (R94). -/
inductive Opcode where
  | nop
  | loadInt
  | loadInt8
  | loadInt16
  | loadInt32
  | loadInt64
  | loadIntMem
  | loadStr
  | storeInt
  | storeInt8
  | storeInt16
  | storeInt32
  | storeInt64
  | incInt
  | decInt
  | addInt
  | subInt
  | mulInt
  | divInt
  | modInt
  | printInt
  | printStr
  | random
  | jmp8
  | jmp16
  | jmp32
  | jmp64
  | jmpInt
  | jmpLe8
  | jmpLe16
  | jmpLe32
  | jmpLe64
  | jmpLeInt
  | mov
  | heap
  | info
  | stop
deriving DecidableEq, Repr

/-- An instruction, one constructor per row of spec/opcode_table.json. A register, comparison, size or info operand
is the byte as encoded: it is checked where the instruction uses it (R98, R110). Displacements are the raw field,
sign-extended at use (R105). -/
inductive Instr where
  /-- NOP (R211). -/
  | nop
  /-- LOAD_INT, a slot with no handler (R121). -/
  | loadInt
  /-- LOAD_INT8 (R122). -/
  | loadInt8 (dst : Byte) (imm : BitVec 8)
  /-- LOAD_INT16 (R123). -/
  | loadInt16 (dst : Byte) (imm : BitVec 16)
  /-- LOAD_INT32 (R124). -/
  | loadInt32 (dst : Byte) (imm : BitVec 32)
  /-- LOAD_INT64 (R125). -/
  | loadInt64 (dst : Byte) (imm : BitVec 64)
  /-- LOAD_INT_MEM: destination, address register, byte count (R131). -/
  | loadIntMem (dst addr size : Byte)
  /-- LOAD_STR: destination, the bytes before the terminator (R160). -/
  | loadStr (dst : Byte) (str : List Byte)
  /-- STORE_STR, the second name of LOAD_STR's encoding (R161). -/
  | storeStr (dst : Byte) (str : List Byte)
  /-- STORE_INT, a slot with no handler (R126). -/
  | storeInt
  /-- STORE_INT8, a slot with no handler (R127). -/
  | storeInt8
  /-- STORE_INT16, a slot with no handler (R128). -/
  | storeInt16
  /-- STORE_INT32, a slot with no handler (R129). -/
  | storeInt32
  /-- STORE_INT64, a slot with no handler (R130). -/
  | storeInt64
  /-- INC_INT (R132). -/
  | incInt (reg : Byte)
  /-- DEC_INT (R133). -/
  | decInt (reg : Byte)
  /-- ADD_INT (R134). -/
  | addInt (dst src1 src2 : Byte)
  /-- SUB_INT (R135). -/
  | subInt (dst src1 src2 : Byte)
  /-- MUL_INT (R136). -/
  | mulInt (dst src1 src2 : Byte)
  /-- DIV_INT (R137). -/
  | divInt (dst src1 src2 : Byte)
  /-- MOD_INT (R138). -/
  | modInt (dst src1 src2 : Byte)
  /-- PRINT_INT (R139). -/
  | printInt (reg : Byte)
  /-- PRINT_STR (R162). -/
  | printStr (reg : Byte)
  /-- RANDOM (R213). -/
  | random (dst : Byte)
  /-- JMP8 (R171). -/
  | jmp8 (disp : BitVec 8)
  /-- JMP16 (R172). -/
  | jmp16 (disp : BitVec 16)
  /-- JMP32 (R173). -/
  | jmp32 (disp : BitVec 32)
  /-- JMP64 (R174). -/
  | jmp64 (disp : BitVec 64)
  /-- JMP_INT (R175). -/
  | jmpInt (reg : Byte)
  /-- JMP_LE8: comparison code, compared registers, displacement (R177). -/
  | jmpLe8 (cmp regA regB : Byte) (disp : BitVec 8)
  /-- JMP_LE16 (R178). -/
  | jmpLe16 (cmp regA regB : Byte) (disp : BitVec 16)
  /-- JMP_LE32 (R179). -/
  | jmpLe32 (cmp regA regB : Byte) (disp : BitVec 32)
  /-- JMP_LE64 (R180). -/
  | jmpLe64 (cmp regA regB : Byte) (disp : BitVec 64)
  /-- JMP_LE_INT: comparison code, compared registers, target register (R181). -/
  | jmpLeInt (cmp regA regB target : Byte)
  /-- MOV (R210). -/
  | mov (dst src : Byte)
  /-- HEAP (R200). -/
  | heap (reg : Byte)
  /-- INFO (R201). -/
  | info (dst code : Byte)
  /-- STOP (R212). -/
  | stop
deriving DecidableEq, Repr

end Sys2Proof
end

