-- ==== Sys2Proof/WellFormed.lean ====
section
/-! DEFINITION. Which instructions have an encoding. Every operand is a whole field of bytes that admits every value
(R91), but for one: a `str` field holds no 0x00 byte, since 0x00 ends it (R91, R109). -/

namespace Sys2Proof

/-- A `str` field: bytes, none 0x00 (R91). -/
def strOk (s : List Byte) : Bool := s.all (· != 0)

/-- The instruction can be encoded. -/
def Instr.wellFormed : Instr → Bool
  | .loadStr _ s => strOk s
  | .storeStr _ s => strOk s
  | .nop | .loadInt | .loadInt8 .. | .loadInt16 .. | .loadInt32 .. | .loadInt64 .. | .loadIntMem .. => true
  | .storeInt | .storeInt8 | .storeInt16 | .storeInt32 | .storeInt64 => true
  | .incInt .. | .decInt .. | .addInt .. | .subInt .. | .mulInt .. | .divInt .. | .modInt .. => true
  | .printInt .. | .printStr .. | .random .. => true
  | .jmp8 .. | .jmp16 .. | .jmp32 .. | .jmp64 .. | .jmpInt .. => true
  | .jmpLe8 .. | .jmpLe16 .. | .jmpLe32 .. | .jmpLe64 .. | .jmpLeInt .. => true
  | .mov .. | .heap .. | .info .. | .stop => true

end Sys2Proof
end

