-- ==== Sys2Proof/Decode.lean ====
section
/-! DEFINITION. The opcode map, the decoder, total on any bytes, and the encoder (R90 to R113). -/

namespace Sys2Proof

/-! ## The opcode map -/

/-- The default `OPCODE_MAP` (R93, D2). The spec takes the map as a parameter (R94), so the decoder and the encoder
below take it as an argument. Log 2. -/
def opcodeMap : Opcode → Byte
  | .nop => 0x00
  | .loadInt => 0x01
  | .loadInt8 => 0x02
  | .loadInt16 => 0x03
  | .loadInt32 => 0x04
  | .loadInt64 => 0x05
  | .loadIntMem => 0x06
  | .loadStr => 0x07
  | .storeInt => 0x08
  | .storeInt8 => 0x09
  | .storeInt16 => 0x0A
  | .storeInt32 => 0x0B
  | .storeInt64 => 0x0C
  | .incInt => 0x0D
  | .decInt => 0x0E
  | .addInt => 0x0F
  | .subInt => 0x10
  | .mulInt => 0x11
  | .divInt => 0x12
  | .modInt => 0x13
  | .printInt => 0x14
  | .printStr => 0x15
  | .random => 0x16
  | .jmp8 => 0x17
  | .jmp16 => 0x18
  | .jmp32 => 0x19
  | .jmp64 => 0x1A
  | .jmpInt => 0x1B
  | .jmpLe8 => 0x1C
  | .jmpLe16 => 0x1D
  | .jmpLe32 => 0x1E
  | .jmpLe64 => 0x1F
  | .jmpLeInt => 0x20
  | .mov => 0x21
  | .heap => 0x22
  | .info => 0x23
  | .stop => 0x24

/-- The 37 classes, in the order of R93. -/
def opcodeList : List Opcode :=
  [.nop, .loadInt, .loadInt8, .loadInt16, .loadInt32, .loadInt64, .loadIntMem, .loadStr, .storeInt, .storeInt8,
   .storeInt16, .storeInt32, .storeInt64, .incInt, .decInt, .addInt, .subInt, .mulInt, .divInt, .modInt, .printInt,
   .printStr, .random, .jmp8, .jmp16, .jmp32, .jmp64, .jmpInt, .jmpLe8, .jmpLe16, .jmpLe32, .jmpLe64, .jmpLeInt,
   .mov, .heap, .info, .stop]

/-- The class that owns an opcode byte under a map; none for an unassigned byte (R95, R101). -/
def opcodeOf (map : Opcode → Byte) (b : Byte) : Option Opcode :=
  opcodeList.find? fun o => map o == b

/-- The class of an instruction. STORE_STR is in LOAD_STR's (R94, D3). -/
def Instr.opcode : Instr → Opcode
  | .nop => .nop
  | .loadInt => .loadInt
  | .loadInt8 .. => .loadInt8
  | .loadInt16 .. => .loadInt16
  | .loadInt32 .. => .loadInt32
  | .loadInt64 .. => .loadInt64
  | .loadIntMem .. => .loadIntMem
  | .loadStr .. => .loadStr
  | .storeStr .. => .loadStr
  | .storeInt => .storeInt
  | .storeInt8 => .storeInt8
  | .storeInt16 => .storeInt16
  | .storeInt32 => .storeInt32
  | .storeInt64 => .storeInt64
  | .incInt .. => .incInt
  | .decInt .. => .decInt
  | .addInt .. => .addInt
  | .subInt .. => .subInt
  | .mulInt .. => .mulInt
  | .divInt .. => .divInt
  | .modInt .. => .modInt
  | .printInt .. => .printInt
  | .printStr .. => .printStr
  | .random .. => .random
  | .jmp8 .. => .jmp8
  | .jmp16 .. => .jmp16
  | .jmp32 .. => .jmp32
  | .jmp64 .. => .jmp64
  | .jmpInt .. => .jmpInt
  | .jmpLe8 .. => .jmpLe8
  | .jmpLe16 .. => .jmpLe16
  | .jmpLe32 .. => .jmpLe32
  | .jmpLe64 .. => .jmpLe64
  | .jmpLeInt .. => .jmpLeInt
  | .mov .. => .mov
  | .heap .. => .heap
  | .info .. => .info
  | .stop => .stop

/-- The instruction as a decoder names it: STORE_STR reads back as LOAD_STR (R161, D3). -/
def Instr.canonical : Instr → Instr
  | .storeStr d s => .loadStr d s
  | i => i

/-- The length in bytes, opcode byte included (R92). -/
def Instr.length : Instr → Nat
  | .nop | .stop => 1
  | .loadInt | .storeInt | .storeInt8 | .storeInt16 | .storeInt32 | .storeInt64 => 1
  | .incInt .. | .decInt .. | .printInt .. | .printStr .. | .random .. | .jmpInt .. | .heap .. => 2
  | .mov .. => 3
  | .addInt .. | .subInt .. | .mulInt .. | .divInt .. | .modInt .. => 4
  | .loadInt8 .. => 3
  | .loadInt16 .. => 4
  | .loadInt32 .. => 6
  | .loadInt64 .. => 10
  | .loadIntMem .. => 4
  | .info .. => 3
  | .loadStr _ s => 3 + s.length
  | .storeStr _ s => 3 + s.length
  | .jmp8 .. => 2
  | .jmp16 .. => 3
  | .jmp32 .. => 5
  | .jmp64 .. => 9
  | .jmpLe8 .. => 5
  | .jmpLe16 .. => 6
  | .jmpLe32 .. => 8
  | .jmpLe64 .. => 12
  | .jmpLeInt .. => 5

/-! ## Fields: big-endian, the first byte the most significant (R92, R97) -/

/-- Two bytes as one field. -/
def be16 (b1 b0 : Byte) : BitVec 16 := BitVec.ofNat 16 (2 ^ 8 * b1.toNat + b0.toNat)

/-- Four bytes as one field. -/
def be32 (b3 b2 b1 b0 : Byte) : BitVec 32 :=
  BitVec.ofNat 32 (2 ^ 16 * (be16 b3 b2).toNat + (be16 b1 b0).toNat)

/-- Eight bytes as one field. -/
def be64 (b7 b6 b5 b4 b3 b2 b1 b0 : Byte) : BitVec 64 :=
  BitVec.ofNat 64 (2 ^ 32 * (be32 b7 b6 b5 b4).toNat + (be32 b3 b2 b1 b0).toNat)

/-- The bytes of a 16-bit field, in stream order. -/
def bytes16 (v : BitVec 16) : List Byte := [BitVec.ofNat 8 (v.toNat / 2 ^ 8), BitVec.ofNat 8 v.toNat]

/-- The bytes of a 32-bit field, in stream order. -/
def bytes32 (v : BitVec 32) : List Byte :=
  bytes16 (BitVec.ofNat 16 (v.toNat / 2 ^ 16)) ++ bytes16 (BitVec.ofNat 16 v.toNat)

/-- The bytes of a 64-bit field, in stream order. -/
def bytes64 (v : BitVec 64) : List Byte :=
  bytes32 (BitVec.ofNat 32 (v.toNat / 2 ^ 32)) ++ bytes32 (BitVec.ofNat 32 v.toNat)

/-- A `str` field: the bytes before the first 0x00, which is consumed; none if the bytes end first (R100, R109). -/
def takeStr : List Byte → Option (List Byte × List Byte)
  | [] => none
  | c :: l =>
    if c = 0 then some ([], l)
    else match takeStr l with
      | some (s, rest) => some (c :: s, rest)
      | none => none

/-! ## The decoder -/

/-- The operand bytes of one format of R92, given to a constructor; none if the bytes end first. Two bytes. -/
def operands2 (mk : Byte → Byte → Instr) : List Byte → Option (Instr × List Byte)
  | a :: b :: l => some (mk a b, l)
  | _ => none

/-- One operand byte (R92, formats `R`, `D8`). -/
def operands1 (mk : Byte → Instr) : List Byte → Option (Instr × List Byte)
  | a :: l => some (mk a, l)
  | _ => none

/-- Three operand bytes (R92, formats `RRR`, `RRS`). -/
def operands3 (mk : Byte → Byte → Byte → Instr) : List Byte → Option (Instr × List Byte)
  | a :: b :: c :: l => some (mk a b c, l)
  | _ => none

/-- Four operand bytes (R92, formats `CRRD8`, `CRRR`). -/
def operands4 (mk : Byte → Byte → Byte → Byte → Instr) : List Byte → Option (Instr × List Byte)
  | a :: b :: c :: d :: l => some (mk a b c d, l)
  | _ => none

/-- A 16-bit field (R92, format `D16`). -/
def field16 (mk : BitVec 16 → Instr) : List Byte → Option (Instr × List Byte)
  | b1 :: b0 :: l => some (mk (be16 b1 b0), l)
  | _ => none

/-- A 32-bit field (R92, format `D32`). -/
def field32 (mk : BitVec 32 → Instr) : List Byte → Option (Instr × List Byte)
  | b3 :: b2 :: b1 :: b0 :: l => some (mk (be32 b3 b2 b1 b0), l)
  | _ => none

/-- A 64-bit field (R92, format `D64`). -/
def field64 (mk : BitVec 64 → Instr) : List Byte → Option (Instr × List Byte)
  | b7 :: b6 :: b5 :: b4 :: b3 :: b2 :: b1 :: b0 :: l => some (mk (be64 b7 b6 b5 b4 b3 b2 b1 b0), l)
  | _ => none

/-- A byte, then what the rest reads (R92, formats `RI<w>`, `RZ`). -/
def after1 (next : Byte → List Byte → Option (Instr × List Byte)) : List Byte → Option (Instr × List Byte)
  | a :: l => next a l
  | _ => none

/-- Three bytes, then what the rest reads (R92, formats `CRRD<w>`). -/
def after3 (next : Byte → Byte → Byte → List Byte → Option (Instr × List Byte)) :
    List Byte → Option (Instr × List Byte)
  | a :: b :: c :: l => next a b c l
  | _ => none

/-- The operands of an opcode class, from the bytes after the opcode byte; none if the bytes end first (R92). -/
def decodeOperands : Opcode → List Byte → Option (Instr × List Byte)
  | .nop, l => some (.nop, l)
  | .loadInt, l => some (.loadInt, l)
  | .loadInt8, l => operands2 .loadInt8 l
  | .loadInt16, l => after1 (fun d => field16 (.loadInt16 d)) l
  | .loadInt32, l => after1 (fun d => field32 (.loadInt32 d)) l
  | .loadInt64, l => after1 (fun d => field64 (.loadInt64 d)) l
  | .loadIntMem, l => operands3 .loadIntMem l
  | .loadStr, l => after1 (fun d l => (takeStr l).map fun (s, rest) => (.loadStr d s, rest)) l
  | .storeInt, l => some (.storeInt, l)
  | .storeInt8, l => some (.storeInt8, l)
  | .storeInt16, l => some (.storeInt16, l)
  | .storeInt32, l => some (.storeInt32, l)
  | .storeInt64, l => some (.storeInt64, l)
  | .incInt, l => operands1 .incInt l
  | .decInt, l => operands1 .decInt l
  | .addInt, l => operands3 .addInt l
  | .subInt, l => operands3 .subInt l
  | .mulInt, l => operands3 .mulInt l
  | .divInt, l => operands3 .divInt l
  | .modInt, l => operands3 .modInt l
  | .printInt, l => operands1 .printInt l
  | .printStr, l => operands1 .printStr l
  | .random, l => operands1 .random l
  | .jmp8, l => operands1 .jmp8 l
  | .jmp16, l => field16 .jmp16 l
  | .jmp32, l => field32 .jmp32 l
  | .jmp64, l => field64 .jmp64 l
  | .jmpInt, l => operands1 .jmpInt l
  | .jmpLe8, l => operands4 .jmpLe8 l
  | .jmpLe16, l => after3 (fun c a b => field16 (.jmpLe16 c a b)) l
  | .jmpLe32, l => after3 (fun c a b => field32 (.jmpLe32 c a b)) l
  | .jmpLe64, l => after3 (fun c a b => field64 (.jmpLe64 c a b)) l
  | .jmpLeInt, l => operands4 .jmpLeInt l
  | .mov, l => operands2 .mov l
  | .heap, l => operands1 .heap l
  | .info, l => operands2 .info l
  | .stop, l => some (.stop, l)

/-- What the decoder reads from bytes. -/
inductive Decoded where
  /-- An instruction, and the bytes after it. -/
  | instr (i : Instr) (rest : List Byte)
  /-- The opcode byte is unassigned: it owns a dispatch slot with no handler (R95). -/
  | unassigned (op : Byte)
  /-- The bytes end inside the instruction, or there are none (R100). -/
  | truncated
deriving DecidableEq, Repr

/-- The decoder under an opcode map (R93, R94, R100). -/
def decodeWith (map : Opcode → Byte) : List Byte → Decoded
  | [] => .truncated
  | op :: l =>
    match opcodeOf map op with
    | none => .unassigned op
    | some o =>
      match decodeOperands o l with
      | some (i, rest) => .instr i rest
      | none => .truncated

/-- The decoder of this block: the default opcode map (R93). -/
def decode : List Byte → Decoded := decodeWith opcodeMap

/-! ## The encoder -/

/-- The operand bytes of an instruction, in stream order (R92). -/
def operandBytes : Instr → List Byte
  | .nop | .stop => []
  | .loadInt | .storeInt | .storeInt8 | .storeInt16 | .storeInt32 | .storeInt64 => []
  | .loadInt8 d v => [d, v]
  | .loadInt16 d v => d :: bytes16 v
  | .loadInt32 d v => d :: bytes32 v
  | .loadInt64 d v => d :: bytes64 v
  | .loadIntMem d a n => [d, a, n]
  | .loadStr d s => d :: (s ++ [0])
  | .storeStr d s => d :: (s ++ [0])
  | .incInt r => [r]
  | .decInt r => [r]
  | .addInt d a b => [d, a, b]
  | .subInt d a b => [d, a, b]
  | .mulInt d a b => [d, a, b]
  | .divInt d a b => [d, a, b]
  | .modInt d a b => [d, a, b]
  | .printInt r => [r]
  | .printStr r => [r]
  | .random d => [d]
  | .jmp8 v => [v]
  | .jmp16 v => bytes16 v
  | .jmp32 v => bytes32 v
  | .jmp64 v => bytes64 v
  | .jmpInt r => [r]
  | .jmpLe8 c a b v => [c, a, b, v]
  | .jmpLe16 c a b v => c :: a :: b :: bytes16 v
  | .jmpLe32 c a b v => c :: a :: b :: bytes32 v
  | .jmpLe64 c a b v => c :: a :: b :: bytes64 v
  | .jmpLeInt c a b t => [c, a, b, t]
  | .mov d s => [d, s]
  | .heap r => [r]
  | .info d k => [d, k]

/-- The encoder under an opcode map. -/
def encodeWith (map : Opcode → Byte) (i : Instr) : List Byte := map i.opcode :: operandBytes i

/-- The encoder of this block: the default opcode map (R93). -/
def encode (i : Instr) : List Byte := encodeWith opcodeMap i

/-! ## A table word (the host's numbering: byte 0 of the stream is bits 7..0 of the number) -/

/-- The first n bytes of a number, the least significant first. -/
def lowBytes : Nat → Nat → List Byte
  | 0, _ => []
  | n + 1, w => BitVec.ofNat 8 w :: lowBytes n (w / 256)

/-- The stream bytes of a table word: its own bytes, then zeros up to the longest fixed length, 12, and one more
byte at least, so that a string ends. -/
def tableBytes (nbits w : Nat) : List Byte :=
  let n := (nbits + 7) / 8
  lowBytes n w ++ List.replicate (max 1 (12 - n)) 0

/-- The instruction the decoder reads from a table word; none where it refuses. -/
def decodeTableWord (nbits w : Nat) : Option Instr :=
  match decode (tableBytes nbits w) with
  | .instr i _ => some i
  | _ => none

end Sys2Proof
end

