-- ==== Sys2Proof/Machine/Integer.lean ====
section
/-! DEFINITION. Integer loads, the memory load, arithmetic and print (41_integer.md), and the unbound integer
mnemonics. A meaning runs after every operand byte was fetched: `s.pc` is the next-instruction address (R99). -/

namespace Sys2Proof.Machine

/-! ## Mnemonics with no handler -/

/-- LOAD_INT (R121). -/
def execLoadInt (s : State) : StepResult := .next (s.unbound unboundPolicy (opcodeMap .loadInt))

/-- STORE_INT (R126). -/
def execStoreInt (s : State) : StepResult := .next (s.unbound unboundPolicy (opcodeMap .storeInt))

/-- STORE_INT8 (R127). -/
def execStoreInt8 (s : State) : StepResult := .next (s.unbound unboundPolicy (opcodeMap .storeInt8))

/-- STORE_INT16 (R128). -/
def execStoreInt16 (s : State) : StepResult := .next (s.unbound unboundPolicy (opcodeMap .storeInt16))

/-- STORE_INT32 (R129). -/
def execStoreInt32 (s : State) : StepResult := .next (s.unbound unboundPolicy (opcodeMap .storeInt32))

/-- STORE_INT64 (R130). -/
def execStoreInt64 (s : State) : StepResult := .next (s.unbound unboundPolicy (opcodeMap .storeInt64))

/-! ## Immediate loads -/

/-- LOAD_INT8 (R122). -/
def execLoadInt8 (d : Byte) (imm : BitVec 8) (s : State) : StepResult := s.complete (s.putInt d (immediate imm))

/-- LOAD_INT16 (R123). -/
def execLoadInt16 (d : Byte) (imm : BitVec 16) (s : State) : StepResult := s.complete (s.putInt d (immediate imm))

/-- LOAD_INT32 (R124). -/
def execLoadInt32 (d : Byte) (imm : BitVec 32) (s : State) : StepResult := s.complete (s.putInt d (immediate imm))

/-- LOAD_INT64 (R125). -/
def execLoadInt64 (d : Byte) (imm : BitVec 64) (s : State) : StepResult := s.complete (s.putInt d (immediate imm))

/-! ## The memory load -/

/-- LOAD_INT_MEM (R131): the size is checked, the address register read, the bytes read, the destination written. -/
def execLoadIntMem (d a n : Byte) (s : State) : StepResult :=
  s.complete do
    let k ← checkSize n
    let addr ← s.getInt a
    let v ← s.memReadBE k addr 0
    s.putInt d v

/-! ## Arithmetic: one source in place, or two sources and a destination -/

/-- `r <- f r` (R132, R133). -/
def State.arith1 (s : State) (r : Byte) (f : Word → Word) : Except FaultCause State := do
  let v ← s.getInt r
  s.putInt r (f v)

/-- `d <- f a b` (R134 to R138): both sources are read, in operand order, before the write. -/
def State.arith2 (s : State) (d a b : Byte) (f : Word → Word → Except FaultCause Word) : Except FaultCause State := do
  let x ← s.getInt a
  let y ← s.getInt b
  let v ← f x y
  s.putInt d v

/-- INC_INT (R132). -/
def execIncInt (r : Byte) (s : State) : StepResult := s.complete (s.arith1 r (· + 1))

/-- DEC_INT (R133). -/
def execDecInt (r : Byte) (s : State) : StepResult := s.complete (s.arith1 r (· - 1))

/-- ADD_INT (R134). -/
def execAddInt (d a b : Byte) (s : State) : StepResult := s.complete (s.arith2 d a b fun x y => .ok (x + y))

/-- SUB_INT: src1 minus src2 (R135). -/
def execSubInt (d a b : Byte) (s : State) : StepResult := s.complete (s.arith2 d a b fun x y => .ok (x - y))

/-- MUL_INT: the low 64 bits of the product (R136). -/
def execMulInt (d a b : Byte) (s : State) : StepResult := s.complete (s.arith2 d a b fun x y => .ok (x * y))

/-- DIV_INT: unsigned floor division; a zero divisor faults (R137). -/
def execDivInt (d a b : Byte) (s : State) : StepResult :=
  s.complete (s.arith2 d a b fun x y => if y = 0 then .error .divideByZero else .ok (x / y))

/-- MOD_INT: unsigned remainder; a zero divisor faults (R138). -/
def execModInt (d a b : Byte) (s : State) : StepResult :=
  s.complete (s.arith2 d a b fun x y => if y = 0 then .error .divideByZero else .ok (x % y))

/-! ## Print -/

/-- PRINT_INT (R139). -/
def execPrintInt (r : Byte) (s : State) : StepResult :=
  s.complete do
    let v ← s.getInt r
    .ok (s.emit (decimal v))

end Sys2Proof.Machine
end

