-- ==== Sys2Proof/Machine/Flags.lean ====
section
/-! DEFINITION. The engine has no flags (R40): a conditional jump computes its predicate and keeps nothing of it.
The comparison codes and predicates (R106, R176). -/

namespace Sys2Proof.Machine

/-- A `cmp` field: 0 to 15, else InvalidComparison (R106). -/
def checkCmp (c : Byte) : Except FaultCause Unit :=
  if 15 < c.toNat then .error (.invalidComparison c) else .ok ()

/-- `P(c, A, B)` over unsigned 64-bit values (R176). Codes 10 to 13 are OPEN (log 4). Code 15 keeps the source's
remainder as a truth value; a zero divisor faults (D19). -/
def predicate (c : Byte) (a b : Word) : Except FaultCause Bool :=
  match c.toNat with
  | 0 => .ok (decide (a = b))
  | 1 => .ok (decide (a.toNat < b.toNat))
  | 2 => .ok (decide (b.toNat < a.toNat))
  | 3 => .ok (decide (a.toNat ≤ b.toNat))
  | 4 => .ok (decide (b.toNat ≤ a.toNat))
  | 5 => .ok (decide (a ≠ b))
  | 6 => .ok (decide (a = 0))
  | 7 => .ok (decide (b = 0))
  | 8 => .ok (decide (a ≠ 0 ∧ b ≠ 0))
  | 9 => .ok (decide (a ≠ 0 ∨ b ≠ 0))
  | 10 => .ok (Config.cmp10 a b)
  | 11 => .ok (Config.cmp11 a b)
  | 12 => .ok (Config.cmp12 a b)
  | 13 => .ok (Config.cmp13 a b)
  | 14 => .ok (decide (a ^^^ b ≠ 0))
  | 15 => if b = 0 then .error .divideByZero else .ok (decide (a % b ≠ 0))
  | _ => .error (.invalidComparison c)

/-- A conditional jump (R177 to R181): the code is checked, both registers are read for every code, then the target,
then the predicate is computed. The target is read whether or not the jump is taken (D20, D21). -/
def State.condJump (s : State) (c a b : Byte) (target : Except FaultCause Word) : Except FaultCause State := do
  checkCmp c
  let x ← s.getInt a
  let y ← s.getInt b
  let t ← target
  let taken ← predicate c x y
  .ok (if taken then s.setPc t else s)

end Sys2Proof.Machine
end

