-- ==== Sys2Proof/Machine/Jump.lean ====
section
/-! DEFINITION. Jumps and conditional jumps (43_jump.md). A target is not checked here but at the next fetch (R182). -/

namespace Sys2Proof.Machine

/-- JMP8 (R171). -/
def execJmp8 (disp : BitVec 8) (s : State) : StepResult := .next (s.setPc (s.relative disp))

/-- JMP16 (R172). -/
def execJmp16 (disp : BitVec 16) (s : State) : StepResult := .next (s.setPc (s.relative disp))

/-- JMP32 (R173). -/
def execJmp32 (disp : BitVec 32) (s : State) : StepResult := .next (s.setPc (s.relative disp))

/-- JMP64 (R174). -/
def execJmp64 (disp : BitVec 64) (s : State) : StepResult := .next (s.setPc (s.relative disp))

/-- JMP_INT: an absolute target (R175). -/
def execJmpInt (r : Byte) (s : State) : StepResult :=
  s.complete do
    let t ← s.getInt r
    .ok (s.setPc t)

/-- JMP_LE8 (R177). -/
def execJmpLe8 (c a b : Byte) (disp : BitVec 8) (s : State) : StepResult :=
  s.complete (s.condJump c a b (.ok (s.relative disp)))

/-- JMP_LE16 (R178). -/
def execJmpLe16 (c a b : Byte) (disp : BitVec 16) (s : State) : StepResult :=
  s.complete (s.condJump c a b (.ok (s.relative disp)))

/-- JMP_LE32 (R179). -/
def execJmpLe32 (c a b : Byte) (disp : BitVec 32) (s : State) : StepResult :=
  s.complete (s.condJump c a b (.ok (s.relative disp)))

/-- JMP_LE64 (R180). -/
def execJmpLe64 (c a b : Byte) (disp : BitVec 64) (s : State) : StepResult :=
  s.complete (s.condJump c a b (.ok (s.relative disp)))

/-- JMP_LE_INT: an absolute target from a register (R181). -/
def execJmpLeInt (c a b t : Byte) (s : State) : StepResult := s.complete (s.condJump c a b (s.getInt t))

end Sys2Proof.Machine
end

