-- ==== Sys2Proof/Machine/Misc.lean ====
section
/-! DEFINITION. Move, no-op, stop and random (45_misc.md). -/

namespace Sys2Proof.Machine

/-- MOV (R210). -/
def execMov (d src : Byte) (s : State) : StepResult := s.complete (s.copyReg d src)

/-- NOP: nothing beyond the fetch of its opcode (R211). -/
def execNop (s : State) : StepResult := .next s

/-- STOP (R212). -/
def execStop (s : State) : StepResult := .next s.halt

/-- RANDOM: a fresh draw, then the write (R43, R213). The draw is taken before the destination is checked (R223).
Log 7. -/
def execRandom (d : Byte) (s : State) : StepResult := s.drawn.complete (s.drawn.putInt d (Config.draw s.drawCount))

end Sys2Proof.Machine
end

