-- ==== Sys2Proof/Machine/Strings.lean ====
section
/-! DEFINITION. String load and print (42_string.md). -/

namespace Sys2Proof.Machine

/-- LOAD_STR (R160). -/
def execLoadStr (d : Byte) (str : List Byte) (s : State) : StepResult := s.complete (s.putStr d str)

/-- STORE_STR: exactly LOAD_STR's semantics (R161). -/
def execStoreStr (d : Byte) (str : List Byte) (s : State) : StepResult := s.complete (s.putStr d str)

/-- PRINT_STR: the raw bytes, nothing added (R162). -/
def execPrintStr (r : Byte) (s : State) : StepResult :=
  s.complete do
    let bs ← s.getStr r
    .ok (s.emit bs)

end Sys2Proof.Machine
end

