-- ==== Sys2Proof/Machine/Dispatch.lean ====
section
/-! DEFINITION. The dispatch of an instruction to its meaning (R101), one arm per constructor. -/

namespace Sys2Proof.Machine

def exec (i : Instr) (s : State) : Host.Outcome State Fault Refusal :=
  match i with
  | .nop => Sys2Proof.Machine.execNop s
  | .loadInt => Sys2Proof.Machine.execLoadInt s
  | .loadInt8 d imm => Sys2Proof.Machine.execLoadInt8 d imm s
  | .loadInt16 d imm => Sys2Proof.Machine.execLoadInt16 d imm s
  | .loadInt32 d imm => Sys2Proof.Machine.execLoadInt32 d imm s
  | .loadInt64 d imm => Sys2Proof.Machine.execLoadInt64 d imm s
  | .loadIntMem d a n => Sys2Proof.Machine.execLoadIntMem d a n s
  | .loadStr d str => Sys2Proof.Machine.execLoadStr d str s
  | .storeStr d str => Sys2Proof.Machine.execStoreStr d str s
  | .storeInt => Sys2Proof.Machine.execStoreInt s
  | .storeInt8 => Sys2Proof.Machine.execStoreInt8 s
  | .storeInt16 => Sys2Proof.Machine.execStoreInt16 s
  | .storeInt32 => Sys2Proof.Machine.execStoreInt32 s
  | .storeInt64 => Sys2Proof.Machine.execStoreInt64 s
  | .incInt r => Sys2Proof.Machine.execIncInt r s
  | .decInt r => Sys2Proof.Machine.execDecInt r s
  | .addInt d a b => Sys2Proof.Machine.execAddInt d a b s
  | .subInt d a b => Sys2Proof.Machine.execSubInt d a b s
  | .mulInt d a b => Sys2Proof.Machine.execMulInt d a b s
  | .divInt d a b => Sys2Proof.Machine.execDivInt d a b s
  | .modInt d a b => Sys2Proof.Machine.execModInt d a b s
  | .printInt r => Sys2Proof.Machine.execPrintInt r s
  | .printStr r => Sys2Proof.Machine.execPrintStr r s
  | .random d => Sys2Proof.Machine.execRandom d s
  | .jmp8 disp => Sys2Proof.Machine.execJmp8 disp s
  | .jmp16 disp => Sys2Proof.Machine.execJmp16 disp s
  | .jmp32 disp => Sys2Proof.Machine.execJmp32 disp s
  | .jmp64 disp => Sys2Proof.Machine.execJmp64 disp s
  | .jmpInt r => Sys2Proof.Machine.execJmpInt r s
  | .jmpLe8 c a b disp => Sys2Proof.Machine.execJmpLe8 c a b disp s
  | .jmpLe16 c a b disp => Sys2Proof.Machine.execJmpLe16 c a b disp s
  | .jmpLe32 c a b disp => Sys2Proof.Machine.execJmpLe32 c a b disp s
  | .jmpLe64 c a b disp => Sys2Proof.Machine.execJmpLe64 c a b disp s
  | .jmpLeInt c a b t => Sys2Proof.Machine.execJmpLeInt c a b t s
  | .mov d src => Sys2Proof.Machine.execMov d src s
  | .heap r => Sys2Proof.Machine.execHeap r s
  | .info d k => Sys2Proof.Machine.execInfo d k s
  | .stop => Sys2Proof.Machine.execStop s

end Sys2Proof.Machine
end

