-- ==== Sys2Proof/Machine/Fetch.lean ====
section
/-! DEFINITION. Instruction fetch from the image (R96, R97, R74), and the part of `step` before the handler runs
(R102). -/

namespace Sys2Proof.Machine

/-- `fetch8()` (R96): the image byte at the pc, and the pc advanced by one. -/
def State.fetch8 (s : State) : Except FaultCause (Byte × State) :=
  match s.image with
  | none => .error .invalidMemory
  | some img =>
    if s.pc.toNat ≥ img.length then .error (.outOfBounds s.pc)
    else .ok (img.getD s.pc.toNat 0, s.setPc (s.pc + 1))

/-- `fetchBE(n)` (R97), after the bytes already in `acc`: the first byte fetched is the most significant. -/
def State.fetchBE : Nat → Word → State → Except FaultCause (Word × State)
  | 0, acc, s => .ok (acc, s)
  | n + 1, acc, s => do
    let (b, t) ← s.fetch8
    State.fetchBE n (acc <<< 8 ||| b.setWidth 64) t

/-- The instruction stream: the image bytes from the pc on. -/
def State.stream (s : State) : List Byte := (s.image.getD []).drop s.pc.toNat

/-- Where a step stands when its operand bytes were fetched. -/
inductive Fetched where
  /-- The instruction's handler runs in state s. -/
  | run (i : Instr) (s : State)
  /-- The step ends in state s: a fetch fault, or a slot with no handler. -/
  | done (s : State)
deriving DecidableEq, Repr

/-- `step` up to the handler (R102). An opcode-fetch fault counts nothing (R225). A stream that ends inside the
instruction faults OutOfBounds at the first byte past it (R100), the opcode counted. Otherwise the pc is the
next-instruction address (R99). The operand bytes are decoded at once: every one is fetched before the handler reads
anything (R99). Log 15. -/
def State.fetch (s : State) : Fetched :=
  match s.fetch8 with
  | .error c => .done (s.raise c)
  | .ok (op, t) =>
    match decode s.stream with
    | .instr i _ => .run i ((t.countOpcode op).setPc (s.pc + BitVec.ofNat 64 i.length))
    | .unassigned b => .done ((t.countOpcode op).unbound unboundPolicy b)
    | .truncated => .done ((t.countOpcode op).raise (.outOfBounds (s.pc + BitVec.ofNat 64 s.stream.length)))

/-- Bytes laid over other bytes from a position on, with zeros between the two where they do not meet. -/
def overlay (bytes : List Byte) (at_ : Nat) (new : List Byte) : List Byte :=
  bytes.take at_ ++ List.replicate (at_ - bytes.length) 0 ++ new ++ bytes.drop (at_ + new.length)

/-- A table word laid into the image where the next fetch reads, the engine running (log 10). -/
def State.placeWord (s : State) (nbits w : Nat) : State :=
  { s with image := some (overlay (s.image.getD []) s.pc.toNat (tableBytes nbits w)), status := .running }

end Sys2Proof.Machine
end

