-- ==== Sys2Proof/Machine/Step.lean ====
section
/-! DEFINITION. One step of the engine (R102). -/

namespace Sys2Proof.Machine

/-- `step()` (R102): one instruction while `status` is Running; no move otherwise (R254, I12). The Boolean the spec
returns is `status = Running` in the next state. -/
def step (s : State) : Host.Outcome State Fault Refusal :=
  match s.status with
  | .halted => .fault .stuckHalted
  | .faulted _ => .fault .stuckFaulted
  | .running =>
    match s.fetch with
    | .run i t => exec i t
    | .done t => .next t

/-- The state with an instruction's table word where `step` fetches next (log 10). -/
def State.withFetchWord (s : State) (nbits w : Nat) : State := s.placeWord nbits w

end Sys2Proof.Machine
end

