-- ==== Sys2Proof/Machine/HostPort.lean ====
section
/-! DEFINITION. The host's operations between steps (R44, R250 to R254, R260). The host's step is Machine/Step.lean's
`step`; its read-out is the fields of State. -/

namespace Sys2Proof.Machine

/-- `construct(image)` (R46, R250): every piece of state at its value after construct. -/
def State.construct (image : List Byte) : State :=
  { State.reset with image := some image, cursor := BitVec.ofNat 64 image.length }

/-- `construct` as the host calls it: an image of 2^64 bytes or more is not admitted (R33, D32, I21). Log 13. -/
def hostConstruct (image : List Byte) : StepResult :=
  if image.length < 2 ^ 64 then .next (State.construct image) else .refused .imageTooLong

/-- A run is under way: its first opcode was fetched and it has not ended. The host may then write neither registers nor
image (R254, I14). Log 19. -/
def State.duringRun (s : State) : Bool := decide (s.status = .running) && s.stepped

/-- `load` as the host calls it (R251): before the first step of a run or between runs (R74), refused in between (R254,
I14; log 19), with the same bound on the image (log 13). -/
def hostLoad (image : List Byte) (s : State) : StepResult :=
  if image.length < 2 ^ 64 then
    if s.duringRun then .refused .hostWriteDuringRun else .next (s.load image)
  else .refused .imageTooLong

/-- `set_debug(b)`: changes only `debug` (R39, R260). -/
def State.setDebug (s : State) (b : Bool) : State := { s with debug := b }

/-- The host's `put` of a value of any kind into a general register (R24, R44): before the first step of a run or
between runs, refused in between (R253, R254, I14). Log 19. That the value may be Unwritten is a DESIGN CHOICE: R44
says "a value of any kind", R7 lists three payload kinds, R21 keeps the tag for a register no write has reached. Log 24.
-/
def hostPut (i : Fin 16) (v : Value) (s : State) : StepResult :=
  if s.duringRun then .refused .hostWriteDuringRun
  else .next (s.setReg i.val v i.isLt)

end Sys2Proof.Machine
end

