-- ==== Sys2Proof/Safety.lean ====
section
/-! DEFINITION. The terms the statements use: what a register operand reads, which faults an instruction may raise
(R226), which register it writes (R31), the invariant of reachable states (R33 to R35), what is observed of a run
(R47), how a run ends (R255). -/

namespace Sys2Proof

/-- The register operand an instruction writes, if any (R31). -/
def Instr.destination : Instr → Option Byte
  | .loadInt8 d _ | .loadInt16 d _ | .loadInt32 d _ | .loadInt64 d _ => some d
  | .loadIntMem d _ _ => some d
  | .loadStr d _ | .storeStr d _ => some d
  | .incInt r | .decInt r => some r
  | .addInt d _ _ | .subInt d _ _ | .mulInt d _ _ | .divInt d _ _ | .modInt d _ _ => some d
  | .random d => some d
  | .mov d _ => some d
  | .info d _ => some d
  | .nop | .stop | .loadInt | .storeInt | .storeInt8 | .storeInt16 | .storeInt32 | .storeInt64 => none
  | .printInt _ | .printStr _ | .heap _ => none
  | .jmp8 _ | .jmp16 _ | .jmp32 _ | .jmp64 _ | .jmpInt _ => none
  | .jmpLe8 .. | .jmpLe16 .. | .jmpLe32 .. | .jmpLe64 .. | .jmpLeInt .. => none

/-- The instruction is one of the jumps of 43_jump.md. -/
def Instr.isJump : Instr → Bool
  | .jmp8 _ | .jmp16 _ | .jmp32 _ | .jmp64 _ | .jmpInt _ => true
  | .jmpLe8 .. | .jmpLe16 .. | .jmpLe32 .. | .jmpLe64 .. | .jmpLeInt .. => true
  | .nop | .stop | .loadInt | .storeInt | .storeInt8 | .storeInt16 | .storeInt32 | .storeInt64 => false
  | .loadInt8 .. | .loadInt16 .. | .loadInt32 .. | .loadInt64 .. | .loadIntMem .. | .loadStr .. | .storeStr .. => false
  | .incInt _ | .decInt _ | .addInt .. | .subInt .. | .mulInt .. | .divInt .. | .modInt .. => false
  | .printInt _ | .printStr _ | .random _ | .mov .. | .heap _ | .info .. => false

/-- The codes (R221) of the faults an instruction's handler can raise: the table of R226 under STRICT. -/
def Instr.faultCodes : Instr → List Nat
  | .nop | .stop => []
  | .loadInt8 .. | .loadInt16 .. | .loadInt32 .. | .loadInt64 .. => [3]
  | .loadIntMem .. => [6, 3, 4, 9]
  | .loadStr .. | .storeStr .. => [3, 4]
  | .incInt .. | .decInt .. => [3, 4]
  | .addInt .. | .subInt .. | .mulInt .. => [3, 4]
  | .divInt .. | .modInt .. => [3, 4, 7]
  | .printInt .. | .printStr .. => [3, 4]
  | .random .. => [3]
  | .jmp8 .. | .jmp16 .. | .jmp32 .. | .jmp64 .. => []
  | .jmpInt .. => [3, 4]
  | .jmpLe8 .. | .jmpLe16 .. | .jmpLe32 .. | .jmpLe64 .. | .jmpLeInt .. => [11, 3, 4, 7]
  | .mov .. => [3, 4]
  | .heap .. => [3, 4, 12]
  | .info .. => [10, 3]
  | .loadInt | .storeInt | .storeInt8 | .storeInt16 | .storeInt32 | .storeInt64 => [5]

namespace Machine

/-- The register byte reads the integer v: a general register with tag Int, or the pc (R26). -/
def State.ReadsInt (s : State) (i : Byte) (v : Word) : Prop :=
  (∃ h : i.toNat < 16, s.regs[i.toNat] = .int v) ∨ (i = pcIndex ∧ s.pc = v)

/-- An integer read of the register byte faults with c (R26): another tag, or no register. -/
def State.IntReadFaults (s : State) (i : Byte) (c : FaultCause) : Prop :=
  (∃ h : i.toNat < 16, (∀ v, s.regs[i.toNat] ≠ .int v) ∧ c = .typeMismatch i) ∨
    (16 ≤ i.toNat ∧ i ≠ pcIndex ∧ c = .invalidRegister i)

/-- The outcome o of an instruction in state s is its write of the integer v to the register byte d (R27): a general
register takes tag Int and v, the PC sentinel sets the pc, any other byte faults; nothing else of s changes. -/
def EndsWritingInt (o : StepResult) (s : State) (d : Byte) (v : Word) : Prop :=
  (∀ h : d.toNat < 16, o = .next { s with regs := s.regs.set d.toNat (.int v) h }) ∧
    (d = pcIndex → o = .next { s with pc := v }) ∧
    (16 ≤ d.toNat → d ≠ pcIndex → o = .next (s.raise (.invalidRegister d)))

/-- The outcome o of an instruction in state s is its write of the tagged value v to the register byte d (R29, R30): a
general register takes tag and payload, the PC sentinel faults with TypeMismatch, any other byte with
InvalidRegister; nothing else of s changes. -/
def EndsWritingValue (o : StepResult) (s : State) (d : Byte) (v : Value) : Prop :=
  (∀ h : d.toNat < 16, o = .next { s with regs := s.regs.set d.toNat v h }) ∧
    (d = pcIndex → o = .next (s.raise (.typeMismatch d))) ∧
    (16 ≤ d.toNat → d ≠ pcIndex → o = .next (s.raise (.invalidRegister d)))

/-- The pc a relative jump sets: the next-instruction address plus the signed displacement, modulo 2^64 (R170). -/
def State.jumpTarget {w : Nat} (s : State) (disp : BitVec w) : Word :=
  BitVec.ofInt 64 ((s.pc.toNat : Int) + disp.toInt)

/-- The value of bytes read big-endian: the first is the most significant (R97). -/
def bigEndian (bs : List Byte) : Nat := bs.foldl (fun n b => 256 * n + b.toNat) 0

/-- The bytes of a segment are in canonical form and lie in it (R34). -/
def Segment.wf (g : Segment) : Bool := Memory.wf g.start.toNat (g.start.toNat + g.size.toNat) g.bytes

/-- Segments that follow one another without a gap or an overlap, from one address to another (R35). -/
def contiguous : Nat → List Segment → Nat → Bool
  | lo, [], hi => decide (lo = hi)
  | lo, g :: gs, hi => decide (g.start.toNat = lo) && contiguous (lo + g.size.toNat) gs hi

/-- `cursor0`, where the heap began at construction (R35): the cursor less what was allocated. -/
def State.heapBase (s : State) : Nat := s.cursor.toNat - heapTotal s.segments

/-- The invariant of reachable states: the image fits the address space (R33), the segments are contiguous and end
at the cursor (R35), every segment's bytes are in canonical form. -/
def State.wf (s : State) : Bool :=
  decide (s.imageLength < 2 ^ 64) && decide (heapTotal s.segments ≤ s.cursor.toNat) &&
    contiguous s.heapBase s.segments s.cursor.toNat && s.segments.all Segment.wf

/-- The allocated bytes are within `HEAP_CAPACITY` (R8, R65). -/
def State.withinCapacity (s : State) : Prop := heapTotal s.segments ≤ Config.heapCapacity.toNat

/-- What may be observed of a finished run (R47). -/
structure Observation where
  regs : Vector Value 16
  status : Status
  tick : Word
  segments : List Segment
  out : List Byte
deriving DecidableEq, Repr

/-- The observation of a state (R47). -/
def State.observe (s : State) : Observation := ⟨s.regs, s.status, s.tick, s.segments, s.out⟩

/-- The run ended in success: only Halted is (R255). -/
def State.succeeded (s : State) : Bool := decide (s.status = .halted)

/-- The run ended in a fault (R255). -/
def State.hasFaulted (s : State) : Bool :=
  match s.status with
  | .faulted _ => true
  | _ => false

/-- A step that takes no fault: what a safe run is made of. -/
def SafeStep (s t : State) : Prop := step s = .next t ∧ t.hasFaulted = false

/-- A function over the next state of an outcome. -/
def mapNext (f : State → State) : StepResult → StepResult
  | .next t => .next (f t)
  | .fault r => .fault r
  | .refused r => .refused r

end Machine

end Sys2Proof
end

