-- ==== Sys2Proof/Certificates/Slice0/Obligations.lean ====
section
/-! DEFINITION. The statements for the provers, in the order of OBLIGATIONS.json. `exec i s` runs after the operand
bytes were fetched: `s.pc` is the next-instruction address (R99). `s.raise c` is what taking the fault c does; the
statement RaiseRecordsTheFault says what that is. No statement rests on a value of a free value (Config). -/

open Sys2Proof Sys2Proof.Machine

/-! ## Encoding -/

/-- R92, R94, R100, R161: under every injective opcode map, the decoder reads back an encoded well-formed instruction,
every operand at every value, and leaves the bytes after it. STORE_STR reads back as LOAD_STR. -/
def Obligations.DecodeOfEncodeIsTheInstruction : Prop :=
  ∀ map : Opcode → Byte, (∀ o p, map o = map p → o = p) → ∀ (i : Instr) (rest : List Byte), i.wellFormed = true →
    decodeWith map (encodeWith map i ++ rest) = .instr i.canonical rest

/-- R90, R100, R109: bytes that decode to an instruction are its encoding and the rest, of the length R92 gives, and
the instruction is well formed (a string holds no 0x00). So no two instructions share bytes. -/
def Obligations.DecodedBytesAreTheEncoding : Prop :=
  ∀ (l : List Byte) (i : Instr) (rest : List Byte), decode l = .instr i rest →
    l = encode i ++ rest ∧ (encode i).length = i.length ∧ i.wellFormed = true ∧ i.canonical = i

/-- R93, R94, R95: the default map is injective on the 37 classes, uses exactly the bytes 0x00 to 0x24, gives
STORE_STR LOAD_STR's byte, and every other byte is unassigned. -/
def Obligations.DefaultOpcodeMapIsInjective : Prop :=
  (∀ o p, opcodeMap o = opcodeMap p → o = p) ∧ (∀ b : Byte, (∃ o, opcodeMap o = b) ↔ b.toNat ≤ 0x24) ∧
    (∀ (d : Byte) (str : List Byte), opcodeMap (Instr.storeStr d str).opcode = opcodeMap (Instr.loadStr d str).opcode) ∧
    ∀ (b : Byte) (l : List Byte), 0x24 < b.toNat → decode (b :: l) = .unassigned b

/-- R112, R122, R134, R160, R171, R177, R200, R210: words written out from the spec decode to their instructions. -/
def Obligations.WrittenOutWordsDecode : Prop :=
  decode [0x02, 0x00, 0x04] = .instr (.loadInt8 0 4) [] ∧
    decode [0x04, 0x01, 0x12, 0x34, 0x56, 0x78] = .instr (.loadInt32 1 0x12345678) [] ∧
    decode [0x0F, 0x02, 0x00, 0x01] = .instr (.addInt 2 0 1) [] ∧
    decode [0x07, 0x00, 0x48, 0x69, 0x00, 0x15] = .instr (.loadStr 0 [0x48, 0x69]) [0x15] ∧
    decode [0x17, 0xFC] = .instr (.jmp8 0xFC) [] ∧
    decode [0x1C, 0x00, 0x00, 0x01, 0x02] = .instr (.jmpLe8 0 0 1 2) [] ∧
    decode [0x22, 0x00] = .instr (.heap 0) [] ∧ decode [0x21, 0x03, 0x01] = .instr (.mov 3 1) []

/-- R92: "In a multi-byte field at offsets [a..b], the byte at offset a is the most significant", for every multi-byte
field of the formats: the 16, 32 and 64-bit fields of the immediate loads, the jumps and the conditional jumps. -/
def Obligations.FieldsAreBigEndian : Prop :=
  ∀ (d x y b7 b6 b5 b4 b3 b2 b1 b0 : Byte) (rest : List Byte),
    ((∃ v, decode (0x03 :: d :: b1 :: b0 :: rest) = .instr (.loadInt16 d v) rest ∧ v.toNat = bigEndian [b1, b0]) ∧
      (∃ v, decode (0x04 :: d :: b3 :: b2 :: b1 :: b0 :: rest) = .instr (.loadInt32 d v) rest ∧
        v.toNat = bigEndian [b3, b2, b1, b0]) ∧
      ∃ v, decode (0x05 :: d :: b7 :: b6 :: b5 :: b4 :: b3 :: b2 :: b1 :: b0 :: rest) = .instr (.loadInt64 d v) rest ∧
        v.toNat = bigEndian [b7, b6, b5, b4, b3, b2, b1, b0]) ∧
    ((∃ v, decode (0x18 :: b1 :: b0 :: rest) = .instr (.jmp16 v) rest ∧ v.toNat = bigEndian [b1, b0]) ∧
      (∃ v, decode (0x19 :: b3 :: b2 :: b1 :: b0 :: rest) = .instr (.jmp32 v) rest ∧
        v.toNat = bigEndian [b3, b2, b1, b0]) ∧
      ∃ v, decode (0x1A :: b7 :: b6 :: b5 :: b4 :: b3 :: b2 :: b1 :: b0 :: rest) = .instr (.jmp64 v) rest ∧
        v.toNat = bigEndian [b7, b6, b5, b4, b3, b2, b1, b0]) ∧
    (∃ v, decode (0x1D :: d :: x :: y :: b1 :: b0 :: rest) = .instr (.jmpLe16 d x y v) rest ∧
      v.toNat = bigEndian [b1, b0]) ∧
    (∃ v, decode (0x1E :: d :: x :: y :: b3 :: b2 :: b1 :: b0 :: rest) = .instr (.jmpLe32 d x y v) rest ∧
      v.toNat = bigEndian [b3, b2, b1, b0]) ∧
    ∃ v, decode (0x1F :: d :: x :: y :: b7 :: b6 :: b5 :: b4 :: b3 :: b2 :: b1 :: b0 :: rest) =
        .instr (.jmpLe64 d x y v) rest ∧ v.toNat = bigEndian [b7, b6, b5, b4, b3, b2, b1, b0]

/-! ## Fetch and step -/

/-- R96: `fetch8` reads the image byte at the pc and advances the pc by one; no image faults InvalidMemory; a pc at or
past the image's end faults OutOfBounds with the pc. -/
def Obligations.FetchByteReadsTheImage : Prop :=
  ∀ s : State, (s.image = none → s.fetch8 = .error .invalidMemory) ∧
    ∀ img, s.image = some img →
      (img.length ≤ s.pc.toNat → s.fetch8 = .error (.outOfBounds s.pc)) ∧
        ∀ h : s.pc.toNat < img.length, s.fetch8 = .ok (img[s.pc.toNat], { s with pc := s.pc + 1 })

/-- R96, R97: `fetchBE(n)` answers the big-endian value of the next n stream bytes, below 2^(8n), and moves the pc past
them; where the image ends first it faults OutOfBounds at the first byte at or past its end; with no image it faults
InvalidMemory. That the first byte is the most significant is the spec's own reading of "big-endian" (R97). -/
def Obligations.FetchFieldIsBigEndian : Prop :=
  ∀ (s : State) (n : Nat), 0 < n → (s.image = none → s.fetchBE n 0 = .error .invalidMemory) ∧
    ∀ img, s.image = some img → img.length < 2 ^ 64 →
      (s.pc.toNat + n ≤ img.length → bigEndian (s.stream.take n) < 2 ^ (8 * n) ∧ s.fetchBE n 0 =
        .ok (BitVec.ofNat 64 (bigEndian (s.stream.take n)), { s with pc := s.pc + BitVec.ofNat 64 n })) ∧
        (img.length < s.pc.toNat + n →
          s.fetchBE n 0 = .error (.outOfBounds (BitVec.ofNat 64 (max s.pc.toNat img.length))))

/-- R99, R102: while Running, where the image bytes at the pc decode to an instruction, a step is that instruction's
handler run with the pc at the next-instruction address, `cur_op` the opcode byte, and `tick` one more. -/
def Obligations.StepRunsTheDecodedInstruction : Prop :=
  ∀ (s : State) (img : List Byte) (i : Instr) (rest : List Byte), s.status = .running → s.image = some img →
    decode (img.drop s.pc.toNat) = .instr i rest →
    step s = exec i { s with pc := s.pc + BitVec.ofNat 64 i.length, curOp := opcodeMap i.opcode, tick := s.tick + 1,
                             stepped := true }

/-- R96, R102, R225, R252: an opcode fetch that fails takes the fault with `tick` and `cur_op` as they were. -/
def Obligations.OpcodeFetchFaultCountsNothing : Prop :=
  ∀ s : State, s.status = .running →
    (s.image = none → step s = .next (s.raise .invalidMemory)) ∧
      ∀ img, s.image = some img → img.length ≤ s.pc.toNat → step s = .next (s.raise (.outOfBounds s.pc))

/-- R100, R225: an instruction that runs past the image faults OutOfBounds at the first byte past the end, counted by
`tick` and `cur_op`, with no register, heap or output change. -/
def Obligations.TruncatedInstructionFaultsAtTheEnd : Prop :=
  ∀ (s : State) (img : List Byte) (h : s.pc.toNat < img.length), s.status = .running → s.image = some img →
    img.length < 2 ^ 64 → decode (img.drop s.pc.toNat) = .truncated →
    ∃ t, step s = .next t ∧ t.status = .faulted ⟨.outOfBounds (BitVec.ofNat 64 img.length), img[s.pc.toNat]⟩ ∧
      t.tick = s.tick + 1 ∧ t.curOp = img[s.pc.toNat] ∧ t.regs = s.regs ∧ t.segments = s.segments ∧
      t.cursor = s.cursor ∧ t.out = s.out

/-- R95: an unassigned opcode byte raises InvalidOpcode with the byte, counted by `tick`; under the permissive policy
a slot with no handler changes nothing. -/
def Obligations.UnassignedOpcodeFaults : Prop :=
  (∀ (s : State) (img : List Byte) (h : s.pc.toNat < img.length), s.status = .running → s.image = some img →
    0x24 < img[s.pc.toNat].toNat →
    step s = .next (State.raise { s with pc := s.pc + 1, curOp := img[s.pc.toNat], tick := s.tick + 1, stepped := true }
      (.invalidOpcode img[s.pc.toNat]))) ∧
    ∀ (s : State) (op : Byte), s.unbound .permissive op = s

/-- R254, I12: `step` has no move while `status` is Halted or Faulted. That it answers a named fault there is the
model's form of "no move" (log 11). -/
def Obligations.StepIsStuckUnlessRunning : Prop :=
  ∀ s : State, (s.status = .halted → step s = .fault .stuckHalted) ∧
    ∀ f, s.status = .faulted f → step s = .fault .stuckFaulted

/-- R103: while Running there is always a next state: the engine has no other stop. And every instruction answers a
next state in every state. -/
def Obligations.StepAlwaysMovesWhileRunning : Prop :=
  (∀ s : State, s.status = .running → ∃ t, step s = .next t) ∧ ∀ (i : Instr) (s : State), ∃ t, exec i s = .next t

/-- R36, R37, R231: a step whose opcode fetch succeeds moves `tick` by one and latches the opcode byte, faulting or
not; a step whose opcode fetch fails moves neither. -/
def Obligations.StepCountsEachFetchedOpcode : Prop :=
  ∀ s t : State, step s = .next t →
    (∀ c, s.fetch8 = .error c → t.tick = s.tick ∧ t.curOp = s.curOp) ∧
      ∀ op u, s.fetch8 = .ok (op, u) → t.tick = s.tick + 1 ∧ t.curOp = op

/-! ## Invariants -/

/-- R33, R35, R46, R250, R251: the state every run starts from meets the invariant: `construct` over any image of the
size the spec admits does, with the allocated bytes within the capacity; `load` of such an image keeps the invariant,
from every state, and keeps the allocated bytes; State.reset does. That State.reset is over the empty image is the
model's choice (log 10). -/
def Obligations.ResetIsWellFormed : Prop :=
  (∀ img : List Byte, img.length < 2 ^ 64 →
    ((State.construct img).wf = true ∧ (State.construct img).withinCapacity) ∧
      ∀ s : State, (s.wf = true → (s.load img).wf = true) ∧ (s.withinCapacity → (s.load img).withinCapacity)) ∧
    State.reset.wf = true ∧ State.reset.withinCapacity

/-- R33, R34, R35: every step keeps the invariant: the image fits the address space, the segments are contiguous up to
the cursor, their bytes are in canonical form. From every state that meets it. -/
def Obligations.StepKeepsWellFormed : Prop :=
  ∀ s t : State, s.wf = true → step s = .next t → t.wf = true

/-- R35, R65: every step keeps where the heap began (the cursor less the allocated bytes), and keeps the allocated
bytes within the capacity. -/
def Obligations.StepKeepsHeapBaseAndCapacity : Prop :=
  ∀ s t : State, heapTotal s.segments ≤ s.cursor.toNat → step s = .next t →
    t.heapBase = s.heapBase ∧ (s.withinCapacity → t.withinCapacity)

/-- R35: in a state that meets the invariant an address belongs to at most one segment, and to none at or above the
cursor. -/
def Obligations.SegmentsOwnDisjointAddresses : Prop :=
  ∀ (s : State) (a : Word), s.wf = true →
    (∀ (j k : Nat) (hj : j < s.segments.length) (hk : k < s.segments.length),
      s.segments[j].contains a = true → s.segments[k].contains a = true → j = k) ∧
      ∀ g ∈ s.segments, g.contains a = true → a.toNat < s.cursor.toNat

/-! ## Frames of all instructions -/

/-- R36, R39, R41, R74: no instruction writes `tick`, `cur_op`, the image or `debug`. -/
def Obligations.InstructionsKeepEngineRegisters : Prop :=
  ∀ (i : Instr) (s t : State), exec i s = .next t →
    t.tick = s.tick ∧ t.curOp = s.curOp ∧ t.image = s.image ∧ t.debug = s.debug ∧ t.stepped = s.stepped

/-- R31, R45: an instruction leaves every general register but its destination operand as it was. -/
def Obligations.InstructionsKeepOtherRegisters : Prop :=
  ∀ (i : Instr) (s t : State), exec i s = .next t →
    ∀ (r : Nat) (h : r < 16), i.destination ≠ some (BitVec.ofNat 8 r) → t.regs[r] = s.regs[r]

/-- R64, R66: only HEAP changes the heap, and it only appends. Every instruction but HEAP leaves segments, cursor and
what every address reads as they were; HEAP leaves what every address outside the segment it appends reads as it was.
-/
def Obligations.InstructionsKeepMemory : Prop :=
  (∀ (i : Instr) (s t : State), (∀ r, i ≠ .heap r) → exec i s = .next t →
    t.segments = s.segments ∧ t.cursor = s.cursor ∧ ∀ a, t.memRead a = s.memRead a) ∧
    ∀ (r : Byte) (n : Word) (s t : State), s.ReadsInt r n → exec (.heap r) s = .next t →
      ∀ a : Word, (a.toNat < s.cursor.toNat ∨ s.cursor.toNat + n.toNat ≤ a.toNat) → t.memRead a = s.memRead a

/-- R66: a step frees, moves and changes no heap byte: the segments only grow at the end, and a byte that could be read
reads the same after. A reload keeps the segments with their bytes. -/
def Obligations.HeapIsAppendOnly : Prop :=
  (∀ s t : State, step s = .next t →
    (∃ gs, t.segments = s.segments ++ gs) ∧ ∀ (a : Word) (b : Byte), s.memRead a = .ok b → t.memRead a = .ok b) ∧
    ∀ (s : State) (img : List Byte), (s.load img).segments = s.segments ∧ (s.load img).cursor = s.cursor

/-- R42: the output only grows at its end, and only by PRINT_INT and PRINT_STR. -/
def Obligations.OutputGrowsOnlyByPrinting : Prop :=
  ∀ (i : Instr) (s t : State), exec i s = .next t →
    (∃ bs, t.out = s.out ++ bs) ∧ ((∀ r, i ≠ .printInt r) → (∀ r, i ≠ .printStr r) → t.out = s.out)

/-- R32, R99: apart from the jumps and a write to the PC sentinel, an instruction that does not fault leaves the pc at
the next-instruction address. -/
def Obligations.PcMovesOnlyByJumps : Prop :=
  ∀ (i : Instr) (s t : State), s.status = .running → exec i s = .next t → t.hasFaulted = false →
    i.destination ≠ some pcIndex → i.isJump = false → t.pc = s.pc

/-! ## Faults and ends -/

/-- R224, R225, R228: a step that ends in a fault leaves the registers, the heap, the cursor, the output, the image and
`debug` as they were, and its record holds `cur_op`. -/
def Obligations.FaultsArePrecise : Prop :=
  ∀ (s t : State) (f : FaultRecord), step s = .next t → t.status = .faulted f →
    t.regs = s.regs ∧ t.segments = s.segments ∧ t.cursor = s.cursor ∧ t.out = s.out ∧ t.image = s.image ∧
      t.debug = s.debug ∧ f.op = t.curOp

/-- R226: an instruction's handler raises only the faults of the table. (Running with an image present, as every
handler is: without one its fetch has faulted.) -/
def Obligations.FaultKindsMatchTheTable : Prop :=
  ∀ (i : Instr) (s t : State) (f : FaultRecord), s.status = .running → s.image ≠ none → exec i s = .next t →
    t.status = .faulted f → f.cause.code ∈ i.faultCodes

/-- R38, R235, R255: a step reaches Halted only by running STOP. -/
def Obligations.HaltOnlyByStop : Prop :=
  ∀ s t : State, step s = .next t → t.status = .halted → ∃ rest, decode s.stream = .instr .stop rest

/-- R39, R260: `set_debug` changes only `debug`, and a step with another `debug` is the same step. -/
def Obligations.DebugFlagDoesNotInterfere : Prop :=
  ∀ (s : State) (b : Bool), s.setDebug b = { s with debug := b } ∧
    step (s.setDebug b) = mapNext (·.setDebug b) (step s)

/-- R222, R225: taking a fault sets `status` to Faulted with the kind, its information and `cur_op`, leaves the pc
unspecified, and changes nothing else. -/
def Obligations.RaiseRecordsTheFault : Prop :=
  ∀ (s : State) (c : FaultCause), (s.raise c).status = .faulted ⟨c, s.curOp⟩ ∧ (s.raise c).regs = s.regs ∧
    (s.raise c).image = s.image ∧ (s.raise c).segments = s.segments ∧ (s.raise c).cursor = s.cursor ∧
    (s.raise c).tick = s.tick ∧ (s.raise c).curOp = s.curOp ∧ (s.raise c).debug = s.debug ∧ (s.raise c).out = s.out ∧
    (s.raise c).drawCount = s.drawCount ∧ (s.raise c).stepped = s.stepped

/-! ## Register accessors -/

/-- R26, R28: the typed reads: a general register of the right tag answers its payload, any other tag (Unwritten
included) is TypeMismatch; the PC sentinel answers the pc to the integer read and TypeMismatch to the string read; any
other byte is InvalidRegister. -/
def Obligations.TypedReadsFollowTheTag : Prop :=
  ∀ (s : State) (i : Byte),
    (∀ h : i.toNat < 16,
      (∀ v, s.regs[i.toNat] = .int v → s.getInt i = .ok v) ∧
        ((∀ v, s.regs[i.toNat] ≠ .int v) → s.getInt i = .error (.typeMismatch i)) ∧
        (∀ bs, s.regs[i.toNat] = .bytes bs → s.getStr i = .ok bs) ∧
        ((∀ bs, s.regs[i.toNat] ≠ .bytes bs) → s.getStr i = .error (.typeMismatch i))) ∧
      (i = 0x10 → s.getInt i = .ok s.pc ∧ s.getStr i = .error (.typeMismatch i)) ∧
      (16 < i.toNat → s.getInt i = .error (.invalidRegister i) ∧ s.getStr i = .error (.invalidRegister i))

/-- R27, R29: the typed writes: a general register takes tag and payload; the PC sentinel takes the integer as the pc
and is TypeMismatch to a string; any other byte is InvalidRegister. -/
def Obligations.TypedWritesReplaceTagAndPayload : Prop :=
  ∀ (s : State) (i : Byte) (v : Word) (bs : List Byte),
    (∀ h : i.toNat < 16, s.putInt i v = .ok { s with regs := s.regs.set i.toNat (.int v) h } ∧
      s.putStr i bs = .ok { s with regs := s.regs.set i.toNat (.bytes bs) h }) ∧
      (i = 0x10 → s.putInt i v = .ok { s with pc := v } ∧ s.putStr i bs = .error (.typeMismatch i)) ∧
      (16 < i.toNat → s.putInt i v = .error (.invalidRegister i) ∧ s.putStr i bs = .error (.invalidRegister i))

/-! ## Memory -/

/-- R61, R62: a read finds the image first, then the first segment that contains the address, where a listed byte reads
as listed and a byte nothing has written reads 0x00; else InvalidHeapAccess; with no image InvalidMemory. That a segment
holds its bytes as listed cells, an unlisted one reading 0x00, is the model's form (log 12). -/
def Obligations.MemReadFindsTheOwner : Prop :=
  ∀ (s : State) (a : Word), (s.image = none → s.memRead a = .error .invalidMemory) ∧
    ∀ img, s.image = some img →
      (∀ h : a.toNat < img.length, s.memRead a = .ok img[a.toNat]) ∧
        (img.length ≤ a.toNat → ∀ pre g post, s.segments = pre ++ g :: post → (∀ p ∈ pre, p.contains a = false) →
          g.start.toNat ≤ a.toNat → a.toNat < g.start.toNat + g.size.toNat →
          ((∀ v, (a.toNat, v) ∉ g.bytes) → s.memRead a = .ok 0) ∧
            ∀ v, g.wf = true → (a.toNat, v) ∈ g.bytes → s.memRead a = .ok v) ∧
        (img.length ≤ a.toNat → (∀ g ∈ s.segments, g.contains a = false) → s.memRead a = .error (.invalidHeapAccess a))

/-- R63: a write into the image is ReadOnlyViolation; a write to an address a segment owns is read back, and leaves
every other address and everything but the segments' bytes as they were: every segment keeps its place and its size,
and every cell but the one written its byte, whether or not the image hides it; other addresses are InvalidHeapAccess;
with no image every write is InvalidMemory. No instruction writes a byte of a segment. -/
def Obligations.MemWriteRoundTrips : Prop :=
  (∀ (s : State) (a : Word) (v : Byte), s.image = none → s.memWrite a v = .error .invalidMemory) ∧
    (∀ (i : Instr) (s t : State), exec i s = .next t → ∃ gs, t.segments = s.segments ++ gs) ∧
    ∀ (s : State) (img : List Byte) (a : Word) (v : Byte), s.wf = true → s.image = some img →
    (a.toNat < img.length → s.memWrite a v = .error (.readOnlyViolation a)) ∧
      (img.length ≤ a.toNat → (∀ g ∈ s.segments, g.contains a = false) →
        s.memWrite a v = .error (.invalidHeapAccess a)) ∧
      (img.length ≤ a.toNat → (∃ g ∈ s.segments, g.contains a = true) →
        ∃ t, s.memWrite a v = .ok t ∧ t.memRead a = .ok v ∧ (∀ b, b ≠ a → t.memRead b = s.memRead b) ∧
          t.wf = true ∧ t = { s with segments := t.segments } ∧
          t.segments.map (fun g => (g.start, g.size)) = s.segments.map (fun g => (g.start, g.size)) ∧
          ∀ (j : Nat) (hj : j < s.segments.length) (hk : j < t.segments.length),
            (s.segments[j].contains a = false → t.segments[j] = s.segments[j]) ∧
              ∀ b, b ≠ a.toNat → Memory.read t.segments[j].bytes b = Memory.read s.segments[j].bytes b)

/-- R65: `allocate(n)`, under any capacity, appends one segment of n bytes at the cursor, with no byte listed (every
byte 0x00), and advances the cursor by n; or raises HeapExhausted where the total would pass the capacity or the
cursor would pass 2^64 - 1. The block's own is under HEAP_CAPACITY. -/
def Obligations.AllocateAppendsOrExhausts : Prop :=
  (∀ (cap : Word) (s : State) (n : Word),
    ((cap.toNat < (s.segments.map (·.size.toNat)).sum + n.toNat ∨ 2 ^ 64 - 1 < s.cursor.toNat + n.toNat) →
      s.allocateWith cap n = .error (.heapExhausted n)) ∧
      ((s.segments.map (·.size.toNat)).sum + n.toNat ≤ cap.toNat → s.cursor.toNat + n.toNat ≤ 2 ^ 64 - 1 →
        s.allocateWith cap n = .ok { s with segments := s.segments ++ [⟨s.cursor, n, []⟩], cursor := s.cursor + n })) ∧
    ∀ (s : State) (n : Word), s.allocate n = s.allocateWith Config.heapCapacity n

/-- R34, R62, R65: every byte of a segment just allocated reads 0x00, unless the image owns the address. -/
def Obligations.FreshHeapReadsZero : Prop :=
  ∀ (cap : Word) (s t : State) (img : List Byte) (n a : Word), s.wf = true → s.image = some img →
    s.allocateWith cap n = .ok t → s.cursor.toNat ≤ a.toNat → a.toNat < s.cursor.toNat + n.toNat →
    img.length ≤ a.toNat → t.memRead a = .ok 0

/-! ## Integer instructions -/

/-- R104, R122 to R125: the four immediate loads write their field, zero-extended. -/
def Obligations.ImmediateLoadsZeroExtend : Prop :=
  ∀ (s : State) (d : Byte) (v8 : BitVec 8) (v16 : BitVec 16) (v32 : BitVec 32) (v64 : BitVec 64),
    EndsWritingInt (exec (.loadInt8 d v8) s) s d (BitVec.ofNat 64 v8.toNat) ∧
      EndsWritingInt (exec (.loadInt16 d v16) s) s d (BitVec.ofNat 64 v16.toNat) ∧
      EndsWritingInt (exec (.loadInt32 d v32) s) s d (BitVec.ofNat 64 v32.toNat) ∧
      EndsWritingInt (exec (.loadInt64 d v64) s) s d v64

/-- R67, R131: LOAD_INT_MEM writes the big-endian value of the n bytes at the address its register holds. -/
def Obligations.LoadIntMemReadsBigEndian : Prop :=
  ∀ (s : State) (d a n : Byte) (addr : Word) (bs : List Byte), s.ReadsInt a addr → 1 ≤ n.toNat → n.toNat ≤ 8 →
    bs.length = n.toNat → (∀ (k : Nat) (h : k < bs.length), s.memRead (addr + BitVec.ofNat 64 k) = .ok bs[k]) →
    EndsWritingInt (exec (.loadIntMem d a n) s) s d (BitVec.ofNat 64 (bigEndian bs))

/-- R107, R131: a size of 0 or above 8 faults InvalidSize whatever the registers hold; a byte that cannot be read
faults as the lowest such byte does, whatever the destination. -/
def Obligations.LoadIntMemFaults : Prop :=
  (∀ (s : State) (d a n : Byte), (n.toNat = 0 ∨ 8 < n.toNat) →
    exec (.loadIntMem d a n) s = .next (s.raise (.invalidSize n))) ∧
    ∀ (s : State) (d a n : Byte) (addr : Word) (k : Nat) (c : FaultCause), s.ReadsInt a addr → n.toNat ≤ 8 →
      k < n.toNat → (∀ j, j < k → ∃ b, s.memRead (addr + BitVec.ofNat 64 j) = .ok b) →
      s.memRead (addr + BitVec.ofNat 64 k) = .error c → exec (.loadIntMem d a n) s = .next (s.raise c)

/-- R132, R133: INC_INT and DEC_INT write their register plus and minus 1, modulo 2^64; through the PC sentinel they
move the next fetch. -/
def Obligations.IncDecWrap : Prop :=
  ∀ (s : State) (r : Byte) (v : Word), s.ReadsInt r v →
    EndsWritingInt (exec (.incInt r) s) s r (BitVec.ofNat 64 (v.toNat + 1)) ∧
      EndsWritingInt (exec (.decInt r) s) s r (BitVec.ofInt 64 ((v.toNat : Int) - 1))

/-- R134, R135, R136: ADD_INT, SUB_INT (src1 minus src2) and MUL_INT write the exact result modulo 2^64. -/
def Obligations.AddSubMulWrap : Prop :=
  ∀ (s : State) (d a b : Byte) (x y : Word), s.ReadsInt a x → s.ReadsInt b y →
    EndsWritingInt (exec (.addInt d a b) s) s d (BitVec.ofNat 64 (x.toNat + y.toNat)) ∧
      EndsWritingInt (exec (.subInt d a b) s) s d (BitVec.ofInt 64 ((x.toNat : Int) - y.toNat)) ∧
      EndsWritingInt (exec (.mulInt d a b) s) s d (BitVec.ofNat 64 (x.toNat * y.toNat))

/-- R137, R138: DIV_INT and MOD_INT write the unsigned floor quotient and remainder; a zero divisor raises DivideByZero,
whatever the destination. -/
def Obligations.DivModOrDivideByZero : Prop :=
  ∀ (s : State) (d a b : Byte) (x y : Word), s.ReadsInt a x → s.ReadsInt b y →
    (y ≠ 0 → EndsWritingInt (exec (.divInt d a b) s) s d (BitVec.ofNat 64 (x.toNat / y.toNat)) ∧
      EndsWritingInt (exec (.modInt d a b) s) s d (BitVec.ofNat 64 (x.toNat % y.toNat))) ∧
      (y = 0 → exec (.divInt d a b) s = .next (s.raise .divideByZero) ∧
        exec (.modInt d a b) s = .next (s.raise .divideByZero))

/-- R26, R223: an integer source that cannot be read faults before any later operand, the operation or the destination
is looked at, in every instruction that reads one, and in operand order. -/
def Obligations.SourceReadFaultsComeInOrder : Prop :=
  ∀ (s : State) (r : Byte) (e : FaultCause), s.IntReadFaults r e →
    (exec (.incInt r) s = .next (s.raise e) ∧ exec (.decInt r) s = .next (s.raise e) ∧
      exec (.printInt r) s = .next (s.raise e) ∧ exec (.jmpInt r) s = .next (s.raise e) ∧
      exec (.heap r) s = .next (s.raise e)) ∧
    (∀ d n : Byte, 1 ≤ n.toNat → n.toNat ≤ 8 → exec (.loadIntMem d r n) s = .next (s.raise e)) ∧
    (∀ i ∈ [Instr.addInt, .subInt, .mulInt, .divInt, .modInt], ∀ d b : Byte,
      exec (i d r b) s = .next (s.raise e) ∧
        ∀ (a : Byte) (x : Word), s.ReadsInt a x → exec (i d a r) s = .next (s.raise e)) ∧
    ∀ (c b t : Byte) (v8 : BitVec 8) (v16 : BitVec 16) (v32 : BitVec 32) (v64 : BitVec 64), c.toNat ≤ 15 →
      (∀ i ∈ [Instr.jmpLe8 c r b v8, .jmpLe16 c r b v16, .jmpLe32 c r b v32, .jmpLe64 c r b v64, .jmpLeInt c r b t],
        exec i s = .next (s.raise e)) ∧
      ∀ (a : Byte) (x : Word), s.ReadsInt a x →
        (∀ i ∈ [Instr.jmpLe8 c a r v8, .jmpLe16 c a r v16, .jmpLe32 c a r v32, .jmpLe64 c a r v64, .jmpLeInt c a r t],
          exec i s = .next (s.raise e)) ∧
        ∀ y, s.ReadsInt b y → exec (.jmpLeInt c a b r) s = .next (s.raise e)

/-- R121, R126 to R130: the six mnemonics with no handler raise InvalidOpcode with their own byte. -/
def Obligations.UnboundMnemonicsRaiseInvalidOpcode : Prop :=
  ∀ s : State, exec .loadInt s = .next (s.raise (.invalidOpcode 0x01)) ∧
    exec .storeInt s = .next (s.raise (.invalidOpcode 0x08)) ∧
    exec .storeInt8 s = .next (s.raise (.invalidOpcode 0x09)) ∧
    exec .storeInt16 s = .next (s.raise (.invalidOpcode 0x0A)) ∧
    exec .storeInt32 s = .next (s.raise (.invalidOpcode 0x0B)) ∧
    exec .storeInt64 s = .next (s.raise (.invalidOpcode 0x0C))

/-! ## Print and strings -/

/-- R139, R162: PRINT_INT appends the decimal numeral of what its register reads; PRINT_STR appends the bytes of a
Bytes register, and faults on any other tag, the PC sentinel or an invalid byte. -/
def Obligations.PrintAppendsToTheOutput : Prop :=
  (∀ (s : State) (r : Byte) (v : Word), s.ReadsInt r v →
    exec (.printInt r) s = .next { s with out := s.out ++ decimal v }) ∧
    ∀ (s : State) (r : Byte),
      (∀ h : r.toNat < 16, (∀ bs, s.regs[r.toNat] = .bytes bs → exec (.printStr r) s = .next { s with out := s.out ++ bs }) ∧
        ((∀ bs, s.regs[r.toNat] ≠ .bytes bs) → exec (.printStr r) s = .next (s.raise (.typeMismatch r)))) ∧
      (r = pcIndex → exec (.printStr r) s = .next (s.raise (.typeMismatch r))) ∧
      (16 ≤ r.toNat → r ≠ pcIndex → exec (.printStr r) s = .next (s.raise (.invalidRegister r)))

/-- R141: `decimal(v)` is 1 to 20 ASCII digits, most significant first, with no leading zero unless v is 0, when it is
the single byte 0x30; read in base 10 it is v. -/
def Obligations.DecimalIsTheNumeral : Prop :=
  ∀ v : Word, 1 ≤ (decimal v).length ∧ (decimal v).length ≤ 20 ∧
    (∀ b ∈ decimal v, 0x30 ≤ b.toNat ∧ b.toNat ≤ 0x39) ∧ (v = 0 → decimal v = [0x30]) ∧
    (v ≠ 0 → (decimal v).head? ≠ some 0x30) ∧
    (decimal v).foldl (fun n b => 10 * n + (b.toNat - 0x30)) 0 = v.toNat

/-- R160, R161: LOAD_STR and STORE_STR write the string's bytes to a general register; the PC sentinel is TypeMismatch,
any other byte InvalidRegister. -/
def Obligations.StringLoadsWriteBytes : Prop :=
  ∀ (s : State) (d : Byte) (str : List Byte), EndsWritingValue (exec (.loadStr d str) s) s d (.bytes str) ∧
    EndsWritingValue (exec (.storeStr d str) s) s d (.bytes str)

/-! ## Jumps -/

/-- R170 to R175: the relative jumps set the pc to the next-instruction address plus the signed displacement, modulo
2^64; JMP_INT sets it to what its register reads. -/
def Obligations.JumpsSetThePc : Prop :=
  (∀ (s : State) (v8 : BitVec 8) (v16 : BitVec 16) (v32 : BitVec 32) (v64 : BitVec 64),
    exec (.jmp8 v8) s = .next { s with pc := s.jumpTarget v8 } ∧
      exec (.jmp16 v16) s = .next { s with pc := s.jumpTarget v16 } ∧
      exec (.jmp32 v32) s = .next { s with pc := s.jumpTarget v32 } ∧
      exec (.jmp64 v64) s = .next { s with pc := s.jumpTarget v64 }) ∧
    ∀ (s : State) (r : Byte) (t : Word), s.ReadsInt r t → exec (.jmpInt r) s = .next { s with pc := t }

/-- R177 to R180: a conditional jump whose code has a predicate value over the two registers jumps, or goes on at the
next instruction. -/
def Obligations.ConditionalJumpsFollowThePredicate : Prop :=
  ∀ (s : State) (c a b : Byte) (x y : Word) (taken : Bool), s.ReadsInt a x → s.ReadsInt b y →
    predicate c x y = .ok taken →
    ∀ (v8 : BitVec 8) (v16 : BitVec 16) (v32 : BitVec 32) (v64 : BitVec 64),
      exec (.jmpLe8 c a b v8) s = .next (if taken then { s with pc := s.jumpTarget v8 } else s) ∧
        exec (.jmpLe16 c a b v16) s = .next (if taken then { s with pc := s.jumpTarget v16 } else s) ∧
        exec (.jmpLe32 c a b v32) s = .next (if taken then { s with pc := s.jumpTarget v32 } else s) ∧
        exec (.jmpLe64 c a b v64) s = .next (if taken then { s with pc := s.jumpTarget v64 } else s)

/-- R181: JMP_LE_INT does the same with an absolute target from a register. -/
def Obligations.ConditionalRegisterJump : Prop :=
  ∀ (s : State) (c a b t : Byte) (x y z : Word) (taken : Bool), s.ReadsInt a x → s.ReadsInt b y → s.ReadsInt t z →
    predicate c x y = .ok taken → exec (.jmpLeInt c a b t) s = .next (if taken then { s with pc := z } else s)

/-- R106, R176, R177 to R181: a comparison code above 15 faults InvalidComparison whatever the registers hold; code 15
with B = 0 raises DivideByZero once every register was read. -/
def Obligations.ComparisonCodeFaults : Prop :=
  ∀ (s : State) (c a b t : Byte) (v8 : BitVec 8) (v16 : BitVec 16) (v32 : BitVec 32) (v64 : BitVec 64),
    (15 < c.toNat →
      ∀ i ∈ [Instr.jmpLe8 c a b v8, .jmpLe16 c a b v16, .jmpLe32 c a b v32, .jmpLe64 c a b v64, .jmpLeInt c a b t],
        exec i s = .next (s.raise (.invalidComparison c))) ∧
      ∀ x, s.ReadsInt a x → s.ReadsInt b 0 → ∀ z, s.ReadsInt t z →
        ∀ i ∈ [Instr.jmpLe8 15 a b v8, .jmpLe16 15 a b v16, .jmpLe32 15 a b v32, .jmpLe64 15 a b v64, .jmpLeInt 15 a b t],
          exec i s = .next (s.raise .divideByZero)

/-- R176: the table of predicates over unsigned 64-bit values. Codes 10 to 13 are the OPEN parameters. -/
def Obligations.PredicateTable : Prop :=
  ∀ a b : Word, predicate 0 a b = .ok (a == b) ∧ predicate 1 a b = .ok (decide (a < b)) ∧
    predicate 2 a b = .ok (decide (a > b)) ∧ predicate 3 a b = .ok (decide (a ≤ b)) ∧
    predicate 4 a b = .ok (decide (a ≥ b)) ∧ predicate 5 a b = .ok (a != b) ∧ predicate 6 a b = .ok (a == 0) ∧
    predicate 7 a b = .ok (b == 0) ∧ predicate 8 a b = .ok (a != 0 && b != 0) ∧
    predicate 9 a b = .ok (a != 0 || b != 0) ∧ predicate 10 a b = .ok (Config.cmp10 a b) ∧
    predicate 11 a b = .ok (Config.cmp11 a b) ∧ predicate 12 a b = .ok (Config.cmp12 a b) ∧
    predicate 13 a b = .ok (Config.cmp13 a b) ∧ predicate 14 a b = .ok ((a ^^^ b) != 0) ∧
    (b = 0 → predicate 15 a b = .error .divideByZero) ∧
    (b ≠ 0 → predicate 15 a b = .ok (decide (a.toNat % b.toNat ≠ 0))) ∧
    ∀ c : Byte, 15 < c.toNat → predicate c a b = .error (.invalidComparison c)

/-! ## Heap, info, move, stop, random -/

/-- R65, R200: HEAP appends a zero-filled segment of the size its register reads at the cursor; where it would pass
HEAP_CAPACITY or 2^64 - 1 it raises HeapExhausted. It writes no register. -/
def Obligations.HeapAppendsASegment : Prop :=
  ∀ (s : State) (r : Byte) (n : Word), s.ReadsInt r n →
    (heapTotal s.segments + n.toNat ≤ Config.heapCapacity.toNat → s.cursor.toNat + n.toNat ≤ 2 ^ 64 - 1 →
      exec (.heap r) s =
        .next { s with segments := s.segments ++ [⟨s.cursor, n, []⟩], cursor := s.cursor + n }) ∧
      ((Config.heapCapacity.toNat < heapTotal s.segments + n.toNat ∨ 2 ^ 64 - 1 < s.cursor.toNat + n.toNat) →
        exec (.heap r) s = .next (s.raise (.heapExhausted n)))

/-- R201, R202: INFO writes the magic constant, `tick`, the sum of the segment sizes, or the image length; a code above
3 faults whatever the destination. -/
def Obligations.InfoWritesTheEntry : Prop :=
  ∀ (s : State) (d : Byte), EndsWritingInt (exec (.info d 0) s) s d Config.magic ∧
    EndsWritingInt (exec (.info d 1) s) s d s.tick ∧
    EndsWritingInt (exec (.info d 2) s) s d (BitVec.ofNat 64 (s.segments.map (·.size.toNat)).sum) ∧
    (∀ img, s.image = some img → EndsWritingInt (exec (.info d 3) s) s d (BitVec.ofNat 64 img.length)) ∧
    ∀ k : Byte, 3 < k.toNat → exec (.info d k) s = .next (s.raise (.unimplementedInfoEntry k))

/-- R30, R210: MOV copies tag and payload, of any kind, Unwritten included, from one general register to another; the PC
sentinel is TypeMismatch and any other byte InvalidRegister, the source first. -/
def Obligations.MovCopiesTheTaggedValue : Prop :=
  ∀ (s : State) (d r : Byte),
    (∀ h : r.toNat < 16, EndsWritingValue (exec (.mov d r) s) s d s.regs[r.toNat]) ∧
      (r = pcIndex → exec (.mov d r) s = .next (s.raise (.typeMismatch r))) ∧
      (16 ≤ r.toNat → r ≠ pcIndex → exec (.mov d r) s = .next (s.raise (.invalidRegister r)))

/-- R211, R212: NOP changes nothing; STOP sets Halted and changes nothing else. -/
def Obligations.NopAndStop : Prop :=
  ∀ s : State, exec .nop s = .next s ∧ exec .stop s = .next { s with status := .halted }

/-- R43, R213: RANDOM writes one fresh draw, whatever its value, and the next RANDOM reads the draw after it. The draw
counter is the model's own (log 7). -/
def Obligations.RandomWritesAFreshDraw : Prop :=
  ∀ (s : State) (d : Byte),
    EndsWritingInt (exec (.random d) s) { s with drawCount := s.drawCount + 1 } d (Config.draw s.drawCount)

/-! ## Reset and the host -/

/-- R46, R250: the state after `construct`, but for `cur_op`, which the spec leaves unspecified. Two clauses are the
model's choice: that `out` is empty after every `construct`, where R46 says "empty at the host's start" (log 14), and
that State.reset is `construct` over the empty image (log 10). -/
def Obligations.ConstructSetsTheResetValues : Prop :=
  (∀ img : List Byte,
    (∀ (r : Nat) (h : r < 16), (State.construct img).regs[r] = .unwritten) ∧ (State.construct img).pc = 0 ∧
      (State.construct img).image = some img ∧ (State.construct img).segments = [] ∧
      (State.construct img).cursor = BitVec.ofNat 64 img.length ∧ (State.construct img).tick = 0 ∧
      (State.construct img).status = .running ∧ (State.construct img).debug = false ∧ (State.construct img).out = []) ∧
    State.reset = State.construct []

/-- R251: `load` replaces the image, sets the pc to 0 and `status` to Running, and changes no other state of the spec,
from every state, a halted or faulted one too. -/
def Obligations.LoadChangesOnlyItsRows : Prop :=
  ∀ (s : State) (img : List Byte),
    (s.load img).image = some img ∧ (s.load img).pc = 0 ∧ (s.load img).status = .running ∧
      (s.load img).regs = s.regs ∧ (s.load img).segments = s.segments ∧ (s.load img).cursor = s.cursor ∧
      (s.load img).tick = s.tick ∧ (s.load img).curOp = s.curOp ∧ (s.load img).debug = s.debug ∧
      (s.load img).out = s.out

/-- R33, R44, R74, R253, R254: `construct` of an image of less than 2^64 bytes is admitted; so are `load` of one and a put
of a value of any kind into a general register before the first step of a run and between runs, in every halted or
faulted state too; between the steps of one run both are refused, and a longer image always is. The refusals, which of
two comes first, and the flag that tells a run's first step are the model's form (logs 13 and 19). That a put may carry
the Unwritten tag is the model's choice (log 24). -/
def Obligations.HostOperationsAdmitOrRefuse : Prop :=
  (∀ img : List Byte, (img.length < 2 ^ 64 → hostConstruct img = .next (State.construct img)) ∧
    (2 ^ 64 ≤ img.length → hostConstruct img = .refused .imageTooLong ∧
      ∀ s, hostLoad img s = .refused .imageTooLong)) ∧
    ∀ (s : State) (img : List Byte) (i : Fin 16) (v : Value), img.length < 2 ^ 64 →
      (s.stepped = false ∨ s.status ≠ .running →
        hostLoad img s = .next (s.load img) ∧
          hostPut i v s = .next { s with regs := s.regs.set i.val v i.isLt }) ∧
        (s.stepped = true → s.status = .running →
          hostLoad img s = .refused .hostWriteDuringRun ∧ hostPut i v s = .refused .hostWriteDuringRun)
end

