-- ==== Sys2Proof/Laws/State.lean ====
section
/-! SUPPORT. What each named update of State does to each field, one lemma per field per update. -/

namespace Sys2Proof.Machine

variable (s : State)

/-! ## `setPc` -/

@[simp] theorem State.setPc_regs (v : Word) : (s.setPc v).regs = s.regs := rfl
@[simp] theorem State.setPc_pc (v : Word) : (s.setPc v).pc = v := rfl
@[simp] theorem State.setPc_image (v : Word) : (s.setPc v).image = s.image := rfl
@[simp] theorem State.setPc_segments (v : Word) : (s.setPc v).segments = s.segments := rfl
@[simp] theorem State.setPc_cursor (v : Word) : (s.setPc v).cursor = s.cursor := rfl
@[simp] theorem State.setPc_tick (v : Word) : (s.setPc v).tick = s.tick := rfl
@[simp] theorem State.setPc_curOp (v : Word) : (s.setPc v).curOp = s.curOp := rfl
@[simp] theorem State.setPc_status (v : Word) : (s.setPc v).status = s.status := rfl
@[simp] theorem State.setPc_debug (v : Word) : (s.setPc v).debug = s.debug := rfl
@[simp] theorem State.setPc_out (v : Word) : (s.setPc v).out = s.out := rfl
@[simp] theorem State.setPc_drawCount (v : Word) : (s.setPc v).drawCount = s.drawCount := rfl
@[simp] theorem State.setPc_faultCount (v : Word) : (s.setPc v).faultCount = s.faultCount := rfl
@[simp] theorem State.setPc_stepped (v : Word) : (s.setPc v).stepped = s.stepped := rfl

/-! ## `halt` -/

@[simp] theorem State.halt_regs : (s.halt).regs = s.regs := rfl
@[simp] theorem State.halt_pc : (s.halt).pc = s.pc := rfl
@[simp] theorem State.halt_image : (s.halt).image = s.image := rfl
@[simp] theorem State.halt_segments : (s.halt).segments = s.segments := rfl
@[simp] theorem State.halt_cursor : (s.halt).cursor = s.cursor := rfl
@[simp] theorem State.halt_tick : (s.halt).tick = s.tick := rfl
@[simp] theorem State.halt_curOp : (s.halt).curOp = s.curOp := rfl
@[simp] theorem State.halt_status : (s.halt).status = .halted := rfl
@[simp] theorem State.halt_debug : (s.halt).debug = s.debug := rfl
@[simp] theorem State.halt_out : (s.halt).out = s.out := rfl
@[simp] theorem State.halt_drawCount : (s.halt).drawCount = s.drawCount := rfl
@[simp] theorem State.halt_faultCount : (s.halt).faultCount = s.faultCount := rfl
@[simp] theorem State.halt_stepped : (s.halt).stepped = s.stepped := rfl

/-! ## `emit` -/

@[simp] theorem State.emit_regs (bs : List Byte) : (s.emit bs).regs = s.regs := rfl
@[simp] theorem State.emit_pc (bs : List Byte) : (s.emit bs).pc = s.pc := rfl
@[simp] theorem State.emit_image (bs : List Byte) : (s.emit bs).image = s.image := rfl
@[simp] theorem State.emit_segments (bs : List Byte) : (s.emit bs).segments = s.segments := rfl
@[simp] theorem State.emit_cursor (bs : List Byte) : (s.emit bs).cursor = s.cursor := rfl
@[simp] theorem State.emit_tick (bs : List Byte) : (s.emit bs).tick = s.tick := rfl
@[simp] theorem State.emit_curOp (bs : List Byte) : (s.emit bs).curOp = s.curOp := rfl
@[simp] theorem State.emit_status (bs : List Byte) : (s.emit bs).status = s.status := rfl
@[simp] theorem State.emit_debug (bs : List Byte) : (s.emit bs).debug = s.debug := rfl
@[simp] theorem State.emit_out (bs : List Byte) : (s.emit bs).out = s.out ++ bs := rfl
@[simp] theorem State.emit_drawCount (bs : List Byte) : (s.emit bs).drawCount = s.drawCount := rfl
@[simp] theorem State.emit_faultCount (bs : List Byte) : (s.emit bs).faultCount = s.faultCount := rfl
@[simp] theorem State.emit_stepped (bs : List Byte) : (s.emit bs).stepped = s.stepped := rfl

/-! ## `drawn` -/

@[simp] theorem State.drawn_regs : (s.drawn).regs = s.regs := rfl
@[simp] theorem State.drawn_pc : (s.drawn).pc = s.pc := rfl
@[simp] theorem State.drawn_image : (s.drawn).image = s.image := rfl
@[simp] theorem State.drawn_segments : (s.drawn).segments = s.segments := rfl
@[simp] theorem State.drawn_cursor : (s.drawn).cursor = s.cursor := rfl
@[simp] theorem State.drawn_tick : (s.drawn).tick = s.tick := rfl
@[simp] theorem State.drawn_curOp : (s.drawn).curOp = s.curOp := rfl
@[simp] theorem State.drawn_status : (s.drawn).status = s.status := rfl
@[simp] theorem State.drawn_debug : (s.drawn).debug = s.debug := rfl
@[simp] theorem State.drawn_out : (s.drawn).out = s.out := rfl
@[simp] theorem State.drawn_drawCount : (s.drawn).drawCount = s.drawCount + 1 := rfl
@[simp] theorem State.drawn_faultCount : (s.drawn).faultCount = s.faultCount := rfl
@[simp] theorem State.drawn_stepped : (s.drawn).stepped = s.stepped := rfl

/-! ## `countOpcode` -/

@[simp] theorem State.countOpcode_regs (op : Byte) : (s.countOpcode op).regs = s.regs := rfl
@[simp] theorem State.countOpcode_pc (op : Byte) : (s.countOpcode op).pc = s.pc := rfl
@[simp] theorem State.countOpcode_image (op : Byte) : (s.countOpcode op).image = s.image := rfl
@[simp] theorem State.countOpcode_segments (op : Byte) : (s.countOpcode op).segments = s.segments := rfl
@[simp] theorem State.countOpcode_cursor (op : Byte) : (s.countOpcode op).cursor = s.cursor := rfl
@[simp] theorem State.countOpcode_tick (op : Byte) : (s.countOpcode op).tick = s.tick + 1 := rfl
@[simp] theorem State.countOpcode_curOp (op : Byte) : (s.countOpcode op).curOp = op := rfl
@[simp] theorem State.countOpcode_status (op : Byte) : (s.countOpcode op).status = s.status := rfl
@[simp] theorem State.countOpcode_debug (op : Byte) : (s.countOpcode op).debug = s.debug := rfl
@[simp] theorem State.countOpcode_out (op : Byte) : (s.countOpcode op).out = s.out := rfl
@[simp] theorem State.countOpcode_drawCount (op : Byte) : (s.countOpcode op).drawCount = s.drawCount := rfl
@[simp] theorem State.countOpcode_faultCount (op : Byte) : (s.countOpcode op).faultCount = s.faultCount := rfl
@[simp] theorem State.countOpcode_stepped (op : Byte) : (s.countOpcode op).stepped = true := rfl

/-! ## `raise` -/

@[simp] theorem State.raise_regs (c : FaultCause) : (s.raise c).regs = s.regs := rfl
@[simp] theorem State.raise_pc (c : FaultCause) : (s.raise c).pc = Config.faultPc s.faultCount := rfl
@[simp] theorem State.raise_image (c : FaultCause) : (s.raise c).image = s.image := rfl
@[simp] theorem State.raise_segments (c : FaultCause) : (s.raise c).segments = s.segments := rfl
@[simp] theorem State.raise_cursor (c : FaultCause) : (s.raise c).cursor = s.cursor := rfl
@[simp] theorem State.raise_tick (c : FaultCause) : (s.raise c).tick = s.tick := rfl
@[simp] theorem State.raise_curOp (c : FaultCause) : (s.raise c).curOp = s.curOp := rfl
@[simp] theorem State.raise_status (c : FaultCause) : (s.raise c).status = .faulted ⟨c, s.curOp⟩ := rfl
@[simp] theorem State.raise_debug (c : FaultCause) : (s.raise c).debug = s.debug := rfl
@[simp] theorem State.raise_out (c : FaultCause) : (s.raise c).out = s.out := rfl
@[simp] theorem State.raise_drawCount (c : FaultCause) : (s.raise c).drawCount = s.drawCount := rfl
@[simp] theorem State.raise_faultCount (c : FaultCause) : (s.raise c).faultCount = s.faultCount + 1 := rfl
@[simp] theorem State.raise_stepped (c : FaultCause) : (s.raise c).stepped = s.stepped := rfl

/-! ## `load` -/

@[simp] theorem State.load_regs (img : List Byte) : (s.load img).regs = s.regs := rfl
@[simp] theorem State.load_pc (img : List Byte) : (s.load img).pc = 0 := rfl
@[simp] theorem State.load_image (img : List Byte) : (s.load img).image = some img := rfl
@[simp] theorem State.load_segments (img : List Byte) : (s.load img).segments = s.segments := rfl
@[simp] theorem State.load_cursor (img : List Byte) : (s.load img).cursor = s.cursor := rfl
@[simp] theorem State.load_tick (img : List Byte) : (s.load img).tick = s.tick := rfl
@[simp] theorem State.load_curOp (img : List Byte) : (s.load img).curOp = s.curOp := rfl
@[simp] theorem State.load_status (img : List Byte) : (s.load img).status = .running := rfl
@[simp] theorem State.load_debug (img : List Byte) : (s.load img).debug = s.debug := rfl
@[simp] theorem State.load_out (img : List Byte) : (s.load img).out = s.out := rfl
@[simp] theorem State.load_drawCount (img : List Byte) : (s.load img).drawCount = s.drawCount := rfl
@[simp] theorem State.load_faultCount (img : List Byte) : (s.load img).faultCount = s.faultCount := rfl
@[simp] theorem State.load_stepped (img : List Byte) : (s.load img).stepped = false := rfl

/-! ## `setDebug` -/

@[simp] theorem State.setDebug_regs (b : Bool) : (s.setDebug b).regs = s.regs := rfl
@[simp] theorem State.setDebug_pc (b : Bool) : (s.setDebug b).pc = s.pc := rfl
@[simp] theorem State.setDebug_image (b : Bool) : (s.setDebug b).image = s.image := rfl
@[simp] theorem State.setDebug_segments (b : Bool) : (s.setDebug b).segments = s.segments := rfl
@[simp] theorem State.setDebug_cursor (b : Bool) : (s.setDebug b).cursor = s.cursor := rfl
@[simp] theorem State.setDebug_tick (b : Bool) : (s.setDebug b).tick = s.tick := rfl
@[simp] theorem State.setDebug_curOp (b : Bool) : (s.setDebug b).curOp = s.curOp := rfl
@[simp] theorem State.setDebug_status (b : Bool) : (s.setDebug b).status = s.status := rfl
@[simp] theorem State.setDebug_debug (b : Bool) : (s.setDebug b).debug = b := rfl
@[simp] theorem State.setDebug_out (b : Bool) : (s.setDebug b).out = s.out := rfl
@[simp] theorem State.setDebug_drawCount (b : Bool) : (s.setDebug b).drawCount = s.drawCount := rfl
@[simp] theorem State.setDebug_faultCount (b : Bool) : (s.setDebug b).faultCount = s.faultCount := rfl
@[simp] theorem State.setDebug_stepped (b : Bool) : (s.setDebug b).stepped = s.stepped := rfl

/-! ## `setReg` -/

@[simp] theorem State.setReg_regs (i : Nat) (v : Value) (h : i < 16) : (s.setReg i v h).regs = s.regs.set i v h := rfl
@[simp] theorem State.setReg_pc (i : Nat) (v : Value) (h : i < 16) : (s.setReg i v h).pc = s.pc := rfl
@[simp] theorem State.setReg_image (i : Nat) (v : Value) (h : i < 16) : (s.setReg i v h).image = s.image := rfl
@[simp] theorem State.setReg_segments (i : Nat) (v : Value) (h : i < 16) : (s.setReg i v h).segments = s.segments := rfl
@[simp] theorem State.setReg_cursor (i : Nat) (v : Value) (h : i < 16) : (s.setReg i v h).cursor = s.cursor := rfl
@[simp] theorem State.setReg_tick (i : Nat) (v : Value) (h : i < 16) : (s.setReg i v h).tick = s.tick := rfl
@[simp] theorem State.setReg_curOp (i : Nat) (v : Value) (h : i < 16) : (s.setReg i v h).curOp = s.curOp := rfl
@[simp] theorem State.setReg_status (i : Nat) (v : Value) (h : i < 16) : (s.setReg i v h).status = s.status := rfl
@[simp] theorem State.setReg_debug (i : Nat) (v : Value) (h : i < 16) : (s.setReg i v h).debug = s.debug := rfl
@[simp] theorem State.setReg_out (i : Nat) (v : Value) (h : i < 16) : (s.setReg i v h).out = s.out := rfl
@[simp] theorem State.setReg_drawCount (i : Nat) (v : Value) (h : i < 16) : (s.setReg i v h).drawCount = s.drawCount := rfl
@[simp] theorem State.setReg_faultCount (i : Nat) (v : Value) (h : i < 16) : (s.setReg i v h).faultCount = s.faultCount := rfl
@[simp] theorem State.setReg_stepped (i : Nat) (v : Value) (h : i < 16) : (s.setReg i v h).stepped = s.stepped := rfl

/-- A register reads back what was written to it (R22). -/
@[simp] theorem State.setReg_same (i : Nat) (v : Value) (h : i < 16) : (s.setReg i v h).regs[i] = v := by simp

/-- A write to a register leaves the others (R30). -/
@[simp] theorem State.setReg_other (i j : Nat) (v : Value) (h : i < 16) (hj : j < 16) (hne : i ≠ j) :
    (s.setReg i v h).regs[j] = s.regs[j] := by simp [hne]

end Sys2Proof.Machine
end

