-- ==== Sys2Proof/Laws/Ops.lean ====
section
/-! SUPPORT. For each shared operation, one lemma that says everything it can do; cite these instead of unfolding. -/

namespace Sys2Proof.Machine

/-! ## The fault monad -/

/-- A sequence that ends well ran both parts well. -/
theorem bind_ok {α β : Type} {x : Except FaultCause α} {f : α → Except FaultCause β} {r : β}
    (h : (x >>= f) = .ok r) : ∃ a, x = .ok a ∧ f a = .ok r := by
  cases x with
  | error c => exact absurd h (by simp [bind, Except.bind])
  | ok a => exact ⟨a, rfl, h⟩

/-- A sequence that faults did so in its first part, or in its second after the first ended well. -/
theorem bind_error {α β : Type} {x : Except FaultCause α} {f : α → Except FaultCause β} {c : FaultCause}
    (h : (x >>= f) = .error c) : x = .error c ∨ ∃ a, x = .ok a ∧ f a = .error c := by
  cases x with
  | error d => exact .inl (by simpa [bind, Except.bind] using h)
  | ok a => exact .inr ⟨a, rfl, h⟩

@[simp] theorem ok_bind {α β : Type} (a : α) (f : α → Except FaultCause β) : (Except.ok a >>= f) = f a := rfl

@[simp] theorem error_bind {α β : Type} (c : FaultCause) (f : α → Except FaultCause β) :
    ((Except.error c : Except FaultCause α) >>= f) = .error c := rfl

@[simp] theorem State.complete_ok (s t : State) : s.complete (.ok t) = .next t := rfl

@[simp] theorem State.complete_error (s : State) (c : FaultCause) : s.complete (.error c) = .next (s.raise c) := rfl

/-- A handler ends in the state it computed, or takes the fault it raised. -/
theorem State.complete_cases {s t : State} {r : Except FaultCause State} (h : s.complete r = .next t) :
    r = .ok t ∨ ∃ c, r = .error c ∧ t = s.raise c := by
  cases r with
  | ok u => exact .inl (by simpa using h)
  | error c => exact .inr ⟨c, rfl, by simpa using h.symm⟩

/-- A handler always has a next state. -/
theorem State.complete_next (s : State) (r : Except FaultCause State) : ∃ t, s.complete r = .next t := by
  cases r <;> exact ⟨_, rfl⟩

/-! ## Register accessors -/

theorem pcIndex_toNat : pcIndex.toNat = 16 := rfl

/-- A register byte that names a general register is not the PC sentinel. -/
theorem ne_pcIndex {i : Byte} (h : i.toNat < 16) : i ≠ pcIndex := by
  intro e
  simp [e, pcIndex_toNat] at h

/-- `getInt` ends well exactly where the operand reads an integer (R26). -/
theorem State.getInt_ok_iff {s : State} {i : Byte} {v : Word} : s.getInt i = .ok v ↔ s.ReadsInt i v := by
  unfold State.getInt State.ReadsInt
  by_cases h : i.toNat < 16
  · have hn := ne_pcIndex h
    simp only [h, dif_pos, exists_true_left, hn, false_and, or_false]
    cases s.regs[i.toNat] <;> simp
  · simp only [h, dif_neg, not_false_eq_true, IsEmpty.exists_iff, false_or]
    by_cases hp : i = pcIndex <;> simp [hp]

/-- `getInt` faults exactly as R26 says. -/
theorem State.getInt_error_iff {s : State} {i : Byte} {c : FaultCause} :
    s.getInt i = .error c ↔ s.IntReadFaults i c := by
  unfold State.getInt State.IntReadFaults
  by_cases h : i.toNat < 16
  · have h16 : ¬ 16 ≤ i.toNat := by omega
    simp only [h, dif_pos, exists_true_left, h16, false_and, or_false]
    cases s.regs[i.toNat] <;> simp [eq_comm]
  · have h16 : 16 ≤ i.toNat := by omega
    simp only [h, dif_neg, not_false_eq_true, IsEmpty.exists_iff, false_or, h16, true_and]
    by_cases hp : i = pcIndex <;> simp [hp, eq_comm]

/-- `putInt` writes a general register or the pc, or faults with InvalidRegister (R27). -/
theorem State.putInt_cases (s : State) (i : Byte) (v : Word) :
    (∃ h, s.putInt i v = .ok (s.setReg i.toNat (.int v) h)) ∨ (i = pcIndex ∧ s.putInt i v = .ok (s.setPc v)) ∨
      (16 ≤ i.toNat ∧ i ≠ pcIndex ∧ s.putInt i v = .error (.invalidRegister i)) := by
  by_cases h : i.toNat < 16
  · exact .inl ⟨h, by simp [State.putInt, h]⟩
  · by_cases hp : i = pcIndex
    · exact .inr (.inl ⟨hp, by simp [State.putInt, hp, pcIndex_toNat]⟩)
    · exact .inr (.inr ⟨by omega, hp, by simp [State.putInt, h, hp]⟩)

/-- `getStr` answers a general register's byte string, or faults as R28 says. -/
theorem State.getStr_cases (s : State) (i : Byte) :
    (∃ (h : i.toNat < 16) (bs : List Byte), s.regs[i.toNat] = .bytes bs ∧ s.getStr i = .ok bs) ∨
      (∃ h : i.toNat < 16, (∀ bs, s.regs[i.toNat] ≠ .bytes bs) ∧ s.getStr i = .error (.typeMismatch i)) ∨
      (i = pcIndex ∧ s.getStr i = .error (.typeMismatch i)) ∨
      (16 ≤ i.toNat ∧ i ≠ pcIndex ∧ s.getStr i = .error (.invalidRegister i)) := by
  by_cases h : i.toNat < 16
  · cases hv : s.regs[i.toNat] with
    | bytes bs => exact .inl ⟨h, bs, hv, by simp [State.getStr, h, hv]⟩
    | int v => exact .inr (.inl ⟨h, by simp [hv], by simp [State.getStr, h, hv]⟩)
    | float v => exact .inr (.inl ⟨h, by simp [hv], by simp [State.getStr, h, hv]⟩)
    | unwritten => exact .inr (.inl ⟨h, by simp [hv], by simp [State.getStr, h, hv]⟩)
  · by_cases hp : i = pcIndex
    · exact .inr (.inr (.inl ⟨hp, by simp [State.getStr, hp, pcIndex_toNat]⟩))
    · exact .inr (.inr (.inr ⟨by omega, hp, by simp [State.getStr, h, hp]⟩))

/-- `putStr` writes a general register, or faults as R29 says. -/
theorem State.putStr_cases (s : State) (i : Byte) (bs : List Byte) :
    (∃ h, s.putStr i bs = .ok (s.setReg i.toNat (.bytes bs) h)) ∨
      (i = pcIndex ∧ s.putStr i bs = .error (.typeMismatch i)) ∨
      (16 ≤ i.toNat ∧ i ≠ pcIndex ∧ s.putStr i bs = .error (.invalidRegister i)) := by
  by_cases h : i.toNat < 16
  · exact .inl ⟨h, by simp [State.putStr, h]⟩
  · by_cases hp : i = pcIndex
    · exact .inr (.inl ⟨hp, by simp [State.putStr, hp, pcIndex_toNat]⟩)
    · exact .inr (.inr ⟨by omega, hp, by simp [State.putStr, h, hp]⟩)

/-- The source of a copy: any tag of a general register, else a fault (R30). -/
theorem State.getAny_cases (s : State) (i : Byte) :
    (∃ h : i.toNat < 16, s.getAny i = .ok s.regs[i.toNat]) ∨ (i = pcIndex ∧ s.getAny i = .error (.typeMismatch i)) ∨
      (16 ≤ i.toNat ∧ i ≠ pcIndex ∧ s.getAny i = .error (.invalidRegister i)) := by
  by_cases h : i.toNat < 16
  · exact .inl ⟨h, by simp [State.getAny, h]⟩
  · by_cases hp : i = pcIndex
    · exact .inr (.inl ⟨hp, by simp [State.getAny, hp, pcIndex_toNat]⟩)
    · exact .inr (.inr ⟨by omega, hp, by simp [State.getAny, h, hp]⟩)

/-- The destination of a copy: a general register, else a fault (R30). -/
theorem State.putAny_cases (s : State) (i : Byte) (v : Value) :
    (∃ h, s.putAny i v = .ok (s.setReg i.toNat v h)) ∨ (i = pcIndex ∧ s.putAny i v = .error (.typeMismatch i)) ∨
      (16 ≤ i.toNat ∧ i ≠ pcIndex ∧ s.putAny i v = .error (.invalidRegister i)) := by
  by_cases h : i.toNat < 16
  · exact .inl ⟨h, by simp [State.putAny, h]⟩
  · by_cases hp : i = pcIndex
    · exact .inr (.inl ⟨hp, by simp [State.putAny, hp, pcIndex_toNat]⟩)
    · exact .inr (.inr ⟨by omega, hp, by simp [State.putAny, h, hp]⟩)

/-! ## The code bytes -/

/-- A size byte is 1 to 8, or faults (R107). -/
theorem checkSize_cases (n : Byte) :
    (1 ≤ n.toNat ∧ n.toNat ≤ 8 ∧ checkSize n = .ok n.toNat) ∨
      ((n.toNat = 0 ∨ 8 < n.toNat) ∧ checkSize n = .error (.invalidSize n)) := by
  have h0 : n = 0 ↔ n.toNat = 0 := by simp [BitVec.toNat_eq]
  unfold checkSize
  split
  · rename_i h
    rw [h0] at h
    exact .inr ⟨h, rfl⟩
  · rename_i h
    rw [h0] at h
    exact .inl ⟨by omega, by omega, rfl⟩

/-- A comparison code is 0 to 15, or faults (R106). -/
theorem checkCmp_cases (c : Byte) :
    (c.toNat ≤ 15 ∧ checkCmp c = .ok ()) ∨ (15 < c.toNat ∧ checkCmp c = .error (.invalidComparison c)) := by
  unfold checkCmp
  split
  · exact .inr ⟨‹_›, rfl⟩
  · exact .inl ⟨by omega, rfl⟩

/-- An INFO code is 0 to 3, or faults (R108). -/
theorem State.infoEntry_error {s : State} {k : Byte} {c : FaultCause} (h : s.infoEntry k = .error c) :
    c = .unimplementedInfoEntry k := by
  unfold State.infoEntry at h
  split at h <;> first | exact (Except.error.inj h).symm | cases h

/-- A predicate of a valid code faults only as code 15 with a zero divisor (R176). -/
theorem predicate_error {c : Byte} {a b : Word} {e : FaultCause} (hc : c.toNat ≤ 15) (h : predicate c a b = .error e) :
    c.toNat = 15 ∧ b = 0 ∧ e = .divideByZero := by
  unfold predicate at h
  split at h <;> first
    | (exfalso; simp only [imp_false] at *; omega)
    | cases h
    | (split at h
       · exact ⟨‹_›, ‹_›, (Except.error.inj h).symm⟩
       · cases h)

/-! ## Memory -/

/-- `resolve` answers the image for its addresses, else the first segment that contains the address (R61). -/
theorem State.resolve_cases (s : State) (a : Word) :
    (s.image = none ∧ s.resolve a = .error .invalidMemory) ∨
      (∃ img, s.image = some img ∧ a.toNat < img.length ∧ s.resolve a = .ok (.image img)) ∨
      (∃ img g, s.image = some img ∧ img.length ≤ a.toNat ∧ s.segments.find? (·.contains a) = some g ∧
        s.resolve a = .ok (.heap g)) ∨
      (∃ img, s.image = some img ∧ img.length ≤ a.toNat ∧ s.segments.find? (·.contains a) = none ∧
        s.resolve a = .error (.invalidHeapAccess a)) := by
  unfold State.resolve
  cases hi : s.image with
  | none => simp
  | some img =>
    by_cases hl : a.toNat < img.length
    · simp [hl]
    · cases hf : s.segments.find? (·.contains a) <;> simp [hl, Nat.le_of_not_lt hl]

/-- A read depends on the image and the segments alone (R62). -/
theorem State.memRead_congr {s t : State} (hi : t.image = s.image) (hg : t.segments = s.segments) (a : Word) :
    t.memRead a = s.memRead a := by
  simp [State.memRead, State.resolve, hi, hg]

/-- A read faults only for want of an image or of an owner of the address (R61, R62). -/
theorem State.memRead_error {s : State} {a : Word} {c : FaultCause} (h : s.memRead a = .error c) :
    (s.image = none ∧ c = .invalidMemory) ∨ c = .invalidHeapAccess a := by
  unfold State.memRead at h
  rcases s.resolve_cases a with ⟨hi, hr⟩ | ⟨img, hi, hl, hr⟩ | ⟨img, g, hi, hl, hf, hr⟩ | ⟨img, hi, hl, hf, hr⟩ <;>
    simp [hr] at h
  · exact .inl ⟨hi, h.symm⟩
  · exact .inr h.symm

/-- A wide read faults as one of its byte reads does (R131). -/
theorem State.memReadBE_error {s : State} {n : Nat} {a acc : Word} {c : FaultCause}
    (h : s.memReadBE n a acc = .error c) : ∃ b, s.memRead b = .error c := by
  induction n generalizing a acc with
  | zero => cases h
  | succ n ih =>
    rcases bind_error h with h' | ⟨b, -, h'⟩
    · exact ⟨a, h'⟩
    · exact ih h'

/-- `allocate` appends one zero-filled segment at the cursor, or faults with HeapExhausted (R65). -/
theorem State.allocateWith_cases (cap : Word) (s : State) (n : Word) :
    (heapTotal s.segments + n.toNat ≤ cap.toNat ∧ s.cursor.toNat + n.toNat ≤ 2 ^ 64 - 1 ∧
      s.allocateWith cap n =
        .ok { s with segments := s.segments ++ [⟨s.cursor, n, []⟩], cursor := s.cursor + n }) ∨
      ((cap.toNat < heapTotal s.segments + n.toNat ∨ 2 ^ 64 - 1 < s.cursor.toNat + n.toNat) ∧
        s.allocateWith cap n = .error (.heapExhausted n)) := by
  unfold State.allocateWith
  split
  · exact .inr ⟨by omega, rfl⟩
  · exact .inl ⟨by omega, by omega, rfl⟩

/-! ## The host's operations -/

theorem State.duringRun_iff (s : State) : s.duringRun = true ↔ s.status = .running ∧ s.stepped = true := by
  simp [State.duringRun]

/-- The host's `load`: refused for the image's length, refused during a run, or R251's (R251, R254). -/
theorem hostLoad_cases (img : List Byte) (s : State) :
    (2 ^ 64 ≤ img.length ∧ hostLoad img s = .refused .imageTooLong) ∨
      (img.length < 2 ^ 64 ∧ s.duringRun = true ∧ hostLoad img s = .refused .hostWriteDuringRun) ∨
      (img.length < 2 ^ 64 ∧ s.duringRun = false ∧ hostLoad img s = .next (s.load img)) := by
  unfold hostLoad
  split
  · rename_i hl
    cases hr : s.duringRun
    · exact .inr (.inr ⟨hl, rfl, rfl⟩)
    · exact .inr (.inl ⟨hl, rfl, rfl⟩)
  · exact .inl ⟨by omega, rfl⟩

/-- The host's put: refused during a run, or the register write (R253, R254). -/
theorem hostPut_cases (i : Fin 16) (v : Value) (s : State) :
    (s.duringRun = true ∧ hostPut i v s = .refused .hostWriteDuringRun) ∨
      (s.duringRun = false ∧ hostPut i v s = .next (s.setReg i.val v i.isLt)) := by
  unfold hostPut
  cases hr : s.duringRun
  · exact .inr ⟨rfl, rfl⟩
  · exact .inl ⟨rfl, rfl⟩

/-! ## Fetch and step -/

/-- `fetch8` answers the image byte at the pc and advances the pc, or faults (R96). -/
theorem State.fetch8_cases (s : State) :
    (s.image = none ∧ s.fetch8 = .error .invalidMemory) ∨
      (∃ img, s.image = some img ∧ img.length ≤ s.pc.toNat ∧ s.fetch8 = .error (.outOfBounds s.pc)) ∨
      (∃ img, s.image = some img ∧ s.pc.toNat < img.length ∧
        s.fetch8 = .ok (img.getD s.pc.toNat 0, s.setPc (s.pc + 1))) := by
  unfold State.fetch8
  cases hi : s.image with
  | none => simp
  | some img =>
    by_cases hl : img.length ≤ s.pc.toNat
    · simp [hl]
    · simp [hl, Nat.lt_of_not_le hl]

/-- A step with a next state was taken while Running: it ran the fetched instruction, or ended in its fetch. -/
theorem step_cases {s t : State} (h : step s = .next t) :
    s.status = .running ∧ ((∃ i u, s.fetch = .run i u ∧ exec i u = .next t) ∨ s.fetch = .done t) := by
  unfold step at h
  split at h
  · cases h
  · cases h
  · refine ⟨‹_›, ?_⟩
    split at h
    · exact .inl ⟨_, _, ‹_›, h⟩
    · cases h
      exact .inr ‹_›

end Sys2Proof.Machine
end

