-- ==== Sys2Proof/Laws/Effect.lean ====
section
/-! SUPPORT. Everything an instruction can do to the state, said once: the inversion lemma of `exec`, and of the fetch
before it. Invariants and frames follow by cases on `Effect`. -/

namespace Sys2Proof.Machine

/-- What an instruction may leave of the state it ran in. -/
inductive Effect (i : Instr) (s : State) : State → Prop where
  /-- Nothing changes. -/
  | none (hi : i ≠ .stop) : Effect i s s
  /-- A fault is taken. -/
  | fault (c : FaultCause) : Effect i s (s.raise c)
  /-- The destination register is written. -/
  | reg (d : Byte) (v : Value) (h : d.toNat < 16) (hd : i.destination = some d) : Effect i s (s.setReg d.toNat v h)
  /-- The pc is set: a jump, or a write through the PC sentinel. -/
  | pc (v : Word) (hi : i.destination = some pcIndex ∨ i.isJump = true) : Effect i s (s.setPc v)
  /-- Bytes are printed. -/
  | emit (bs : List Byte) (hi : (∃ r, i = .printInt r) ∨ ∃ r, i = .printStr r) : Effect i s (s.emit bs)
  /-- A segment is appended. -/
  | heap (r : Byte) (n : Word) (hi : i = .heap r) (hr : s.ReadsInt r n)
      (hc : heapTotal s.segments + n.toNat ≤ Config.heapCapacity.toNat) (hb : s.cursor.toNat + n.toNat ≤ 2 ^ 64 - 1) :
      Effect i s { s with segments := s.segments ++ [⟨s.cursor, n, []⟩], cursor := s.cursor + n }
  /-- STOP. -/
  | halt (hi : i = .stop) : Effect i s s.halt
  /-- A draw is taken and written to a register. -/
  | drawReg (d : Byte) (v : Value) (h : d.toNat < 16) (hi : i = .random d) : Effect i s (s.drawn.setReg d.toNat v h)
  /-- A draw is taken and written to the pc. -/
  | drawPc (v : Word) (hi : i = .random pcIndex) : Effect i s (s.drawn.setPc v)
  /-- A draw is taken and the write faults. -/
  | drawFault (d : Byte) (c : FaultCause) (hi : i = .random d) : Effect i s (s.drawn.raise c)

/-- A handler that ends in an integer write. -/
theorem Effect.of_putInt {i : Instr} {s t : State} {d : Byte} {v : Word} (hd : i.destination = some d)
    (h : s.complete (s.putInt d v) = .next t) : Effect i s t := by
  rcases s.putInt_cases d v with ⟨hr, he⟩ | ⟨rfl, he⟩ | ⟨-, -, he⟩ <;> rw [he] at h <;> cases h
  · exact .reg d _ hr hd
  · exact .pc v (.inl hd)
  · exact .fault _

/-- A handler that ends in a string write. -/
theorem Effect.of_putStr {i : Instr} {s t : State} {d : Byte} {bs : List Byte} (hd : i.destination = some d)
    (h : s.complete (s.putStr d bs) = .next t) : Effect i s t := by
  rcases s.putStr_cases d bs with ⟨hr, he⟩ | ⟨rfl, he⟩ | ⟨-, -, he⟩ <;> rw [he] at h <;> cases h
  · exact .reg d _ hr hd
  · exact .fault _
  · exact .fault _

/-- A handler that reads first: the read faults, or the rest has the effect. -/
theorem Effect.of_bind {i : Instr} {s t : State} {α : Type} {x : Except FaultCause α}
    {f : α → Except FaultCause State} (h : s.complete (x >>= f) = .next t)
    (hf : ∀ a, x = .ok a → s.complete (f a) = .next t → Effect i s t) : Effect i s t := by
  cases x with
  | error c => cases h; exact .fault c
  | ok a => exact hf a rfl h

/-- One source in place (R132, R133). -/
theorem Effect.of_arith1 {i : Instr} {s t : State} {r : Byte} {f : Word → Word} (hd : i.destination = some r)
    (h : s.complete (s.arith1 r f) = .next t) : Effect i s t :=
  .of_bind h fun _ _ h => .of_putInt hd h

/-- Two sources and a destination (R134 to R138). -/
theorem Effect.of_arith2 {i : Instr} {s t : State} {d a b : Byte} {f : Word → Word → Except FaultCause Word}
    (hd : i.destination = some d) (h : s.complete (s.arith2 d a b f) = .next t) : Effect i s t :=
  .of_bind h fun _ _ h => .of_bind h fun _ _ h => .of_bind h fun _ _ h => .of_putInt hd h

/-- A conditional jump (R177 to R181). -/
theorem Effect.of_condJump {i : Instr} {s t : State} {c a b : Byte} {target : Except FaultCause Word}
    (hj : i.isJump = true) (hs : i ≠ .stop) (h : s.complete (s.condJump c a b target) = .next t) : Effect i s t :=
  .of_bind h fun _ _ h => .of_bind h fun _ _ h => .of_bind h fun _ _ h => .of_bind h fun v _ h =>
    .of_bind h fun taken _ h => by
      cases taken <;> cases h
      · exact .none hs
      · exact .pc v (.inr hj)

/-- The inversion lemma of `exec`. -/
theorem exec_effect {i : Instr} {s t : State} (h : exec i s = .next t) : Effect i s t := by
  cases i with
  | nop => cases h; exact .none (by simp)
  | stop => cases h; exact .halt rfl
  | loadInt | storeInt | storeInt8 | storeInt16 | storeInt32 | storeInt64 => cases h; exact .fault _
  | loadInt8 d v | loadInt16 d v | loadInt32 d v | loadInt64 d v => exact .of_putInt rfl h
  | loadIntMem d a n =>
    exact .of_bind h fun _ _ h => .of_bind h fun _ _ h => .of_bind h fun _ _ h => .of_putInt rfl h
  | loadStr d bs | storeStr d bs => exact .of_putStr rfl h
  | incInt r | decInt r => exact .of_arith1 rfl h
  | addInt d a b | subInt d a b | mulInt d a b | divInt d a b | modInt d a b => exact .of_arith2 rfl h
  | printInt r => exact .of_bind h fun _ _ h => by cases h; exact .emit _ (.inl ⟨r, rfl⟩)
  | printStr r => exact .of_bind h fun _ _ h => by cases h; exact .emit _ (.inr ⟨r, rfl⟩)
  | random d =>
    simp only [exec, execRandom] at h
    rcases s.drawn.putInt_cases d (Config.draw s.drawCount) with ⟨hr, he⟩ | ⟨rfl, he⟩ | ⟨-, -, he⟩ <;>
      rw [he] at h <;> cases h
    · exact .drawReg d _ hr rfl
    · exact .drawPc _ rfl
    · exact .drawFault d _ rfl
  | jmp8 v | jmp16 v | jmp32 v | jmp64 v => cases h; exact .pc _ (.inr rfl)
  | jmpInt r => exact .of_bind h fun _ _ h => by cases h; exact .pc _ (.inr rfl)
  | jmpLe8 c a b v | jmpLe16 c a b v | jmpLe32 c a b v | jmpLe64 c a b v | jmpLeInt c a b v =>
    exact .of_condJump rfl (by simp) h
  | mov d r =>
    refine .of_bind h fun v _ h => ?_
    rcases s.putAny_cases d v with ⟨hr, he⟩ | ⟨-, he⟩ | ⟨-, -, he⟩ <;> rw [he] at h <;> cases h
    · exact .reg d v hr rfl
    · exact .fault _
    · exact .fault _
  | heap r =>
    refine .of_bind h fun n hn h => ?_
    rcases s.allocateWith_cases Config.heapCapacity n with ⟨hc, hb, he⟩ | ⟨-, he⟩ <;>
      simp only [State.allocate, he] at h <;> cases h
    · exact .heap r n rfl (State.getInt_ok_iff.1 hn) hc hb
    · exact .fault _
  | info d k => exact .of_bind h fun _ _ h => .of_putInt rfl h

/-- A fetch that reaches a handler: the stream decodes to the instruction, and the state counts it (R99, R102). -/
theorem State.fetch_run {s u : State} {i : Instr} (h : s.fetch = .run i u) :
    ∃ op t rest, s.fetch8 = .ok (op, t) ∧ decode s.stream = .instr i rest ∧
      u = (s.countOpcode op).setPc (s.pc + BitVec.ofNat 64 i.length) := by
  unfold State.fetch at h
  rcases s.fetch8_cases with ⟨-, he⟩ | ⟨_, -, -, he⟩ | ⟨_, -, -, he⟩ <;> rw [he] at h
  · cases h
  · cases h
  · cases hd : decode s.stream with
    | instr j rest =>
      simp only [hd] at h
      cases h
      exact ⟨_, _, rest, he, rfl, rfl⟩
    | unassigned b => simp only [hd] at h; cases h
    | truncated => simp only [hd] at h; cases h

/-- A fetch that ends the step takes a fault: at the opcode fetch, with nothing counted, or after it (R225). -/
theorem State.fetch_done {s u : State} (h : s.fetch = .done u) :
    (∃ c, s.fetch8 = .error c ∧ u = s.raise c) ∨
      ∃ op t c, s.fetch8 = .ok (op, t) ∧ u = ((s.setPc (s.pc + 1)).countOpcode op).raise c := by
  unfold State.fetch at h
  rcases s.fetch8_cases with ⟨-, he⟩ | ⟨_, -, -, he⟩ | ⟨_, -, -, he⟩ <;> rw [he] at h
  · cases h; exact .inl ⟨_, he, rfl⟩
  · cases h; exact .inl ⟨_, he, rfl⟩
  · cases hd : decode s.stream with
    | instr j rest => simp only [hd] at h; cases h
    | unassigned b => simp only [hd] at h; cases h; exact .inr ⟨_, _, _, he, rfl⟩
    | truncated => simp only [hd] at h; cases h; exact .inr ⟨_, _, _, he, rfl⟩

end Sys2Proof.Machine
end

