-- ==== Sys2Proof/Laws/Memory.lean ====
section
/-! SUPPORT. The canonical form of memory: every operation keeps it, and a write is read back and leaves every other
address alone (R63). -/

namespace Sys2Proof.Machine

/-- Canonical from an address on is canonical from any lower one. -/
theorem Memory.wfFrom_mono {lo lo' hi : Nat} {m : Memory} (h : Memory.wfFrom lo hi m = true) (hle : lo' ≤ lo) :
    Memory.wfFrom lo' hi m = true := by
  cases m with
  | nil => rfl
  | cons c m =>
    obtain ⟨a, v⟩ := c
    simp only [Memory.wfFrom, Bool.and_eq_true, decide_eq_true_eq] at h ⊢
    exact ⟨⟨⟨by omega, h.1.1.2⟩, h.1.2⟩, h.2⟩

/-- A memory canonical from an address on lists nothing below it. -/
theorem Memory.read_below {lo hi a : Nat} {m : Memory} (h : Memory.wfFrom lo hi m = true) (ha : a < lo) :
    Memory.read m a = 0 := by
  induction m generalizing lo with
  | nil => rfl
  | cons c m ih =>
    obtain ⟨b, w⟩ := c
    simp only [Memory.wfFrom, Bool.and_eq_true, decide_eq_true_eq] at h
    have hne : a ≠ b := by omega
    simp only [Memory.read, hne, if_false]
    exact ih h.2 (by omega)

@[simp] theorem Memory.read_cons_same (a : Nat) (v : Byte) (m : Memory) (h : v = 0 → Memory.read m a = 0) :
    Memory.read (Memory.cons a v m) a = v := by
  unfold Memory.cons
  split
  · simp_all
  · simp [Memory.read]

theorem Memory.read_cons_other {a b : Nat} (v : Byte) (m : Memory) (hne : b ≠ a) :
    Memory.read (Memory.cons a v m) b = Memory.read m b := by
  unfold Memory.cons
  split
  · rfl
  · simp [Memory.read, hne]

/-- A byte written is the byte read back (R63). -/
theorem Memory.read_write_same {lo hi a : Nat} {m : Memory} (v : Byte) (h : Memory.wfFrom lo hi m = true) :
    Memory.read (Memory.write m a v) a = v := by
  induction m generalizing lo with
  | nil => exact Memory.read_cons_same a v [] (fun _ => rfl)
  | cons c m ih =>
    obtain ⟨b, w⟩ := c
    have hw := h
    simp only [Memory.wfFrom, Bool.and_eq_true, decide_eq_true_eq] at h
    simp only [Memory.write]
    split
    · rename_i hlt
      have hb : Memory.wfFrom b hi ((b, w) :: m) = true := by
        simp only [Memory.wfFrom, Bool.and_eq_true, decide_eq_true_eq]
        exact ⟨⟨⟨Nat.le_refl b, h.1.1.2⟩, h.1.2⟩, h.2⟩
      exact Memory.read_cons_same a v _ (fun _ => Memory.read_below hb hlt)
    · split
      · rename_i heq
        subst heq
        exact Memory.read_cons_same a v m (fun _ => Memory.read_below h.2 (Nat.lt_succ_self a))
      · rename_i hne
        simp only [Memory.read, hne, if_false]
        exact ih h.2

/-- A write leaves every other address alone (R63). -/
theorem Memory.read_write_other {a b : Nat} (m : Memory) (v : Byte) (hne : b ≠ a) :
    Memory.read (Memory.write m a v) b = Memory.read m b := by
  induction m with
  | nil => exact Memory.read_cons_other v [] hne
  | cons c m ih =>
    obtain ⟨k, w⟩ := c
    simp only [Memory.write]
    split
    · exact Memory.read_cons_other v _ hne
    · split
      · rename_i heq
        subst heq
        rw [Memory.read_cons_other v m hne]
        simp [Memory.read, hne]
      · simp only [Memory.read, ih]

theorem Memory.cons_wf {lo hi a : Nat} {v : Byte} {m : Memory} (hlo : lo ≤ a) (hhi : a < hi)
    (h : Memory.wfFrom (a + 1) hi m = true) : Memory.wfFrom lo hi (Memory.cons a v m) = true := by
  unfold Memory.cons
  split
  · exact Memory.wfFrom_mono h (by omega)
  · simp_all [Memory.wfFrom]

/-- A write inside the bounds keeps the canonical form. -/
theorem Memory.write_wf {lo hi a : Nat} {m : Memory} (v : Byte) (hlo : lo ≤ a) (hhi : a < hi)
    (h : Memory.wf lo hi m = true) : Memory.wf lo hi (Memory.write m a v) = true := by
  unfold Memory.wf at h ⊢
  induction m generalizing lo with
  | nil => exact Memory.cons_wf hlo hhi rfl
  | cons c m ih =>
    obtain ⟨b, w⟩ := c
    have hw := h
    simp only [Memory.wfFrom, Bool.and_eq_true, decide_eq_true_eq] at h
    simp only [Memory.write]
    split
    · refine Memory.cons_wf hlo hhi ?_
      simp only [Memory.wfFrom, Bool.and_eq_true, decide_eq_true_eq]
      exact ⟨⟨⟨by omega, h.1.1.2⟩, h.1.2⟩, h.2⟩
    · split
      · rename_i heq
        subst heq
        exact Memory.cons_wf hlo hhi h.2
      · have := ih (lo := b + 1) (by omega) h.2
        simp only [Memory.wfFrom, Bool.and_eq_true, decide_eq_true_eq]
        exact ⟨⟨⟨h.1.1.1, h.1.1.2⟩, h.1.2⟩, this⟩

/-- A fresh segment's bytes are in canonical form (R65). -/
theorem Segment.fresh_wf (start size : Word) : Segment.wf ⟨start, size, []⟩ = true := rfl

/-- A write to the first owner of an address keeps every segment's canonical form (R63). -/
theorem writeSegments_wf {gs : List Segment} (a : Word) (v : Byte) (h : gs.all Segment.wf = true) :
    (writeSegments gs a v).all Segment.wf = true := by
  induction gs with
  | nil => rfl
  | cons g gs ih =>
    simp only [List.all_cons, Bool.and_eq_true] at h
    simp only [writeSegments]
    split
    · rename_i hc
      simp only [Segment.contains, Bool.and_eq_true, decide_eq_true_eq] at hc
      simp only [List.all_cons, Bool.and_eq_true]
      exact ⟨Memory.write_wf v hc.1 hc.2 h.1, h.2⟩
    · simp only [List.all_cons, Bool.and_eq_true]
      exact ⟨h.1, ih h.2⟩

/-- A write moves no segment (R34). -/
theorem writeSegments_place (gs : List Segment) (a : Word) (v : Byte) :
    (writeSegments gs a v).map (fun g => (g.start, g.size)) = gs.map (fun g => (g.start, g.size)) := by
  induction gs with
  | nil => rfl
  | cons g gs ih =>
    simp only [writeSegments]
    split <;> simp [ih]

/-- A write changes no segment that does not contain the address, and no other cell of the one that does (R63). -/
theorem writeSegments_cells (gs : List Segment) (a : Word) (v : Byte) (j : Nat) (hj : j < gs.length)
    (hk : j < (writeSegments gs a v).length) :
    (gs[j].contains a = false → (writeSegments gs a v)[j] = gs[j]) ∧
      ∀ b, b ≠ a.toNat → Memory.read (writeSegments gs a v)[j].bytes b = Memory.read gs[j].bytes b := by
  induction gs generalizing j with
  | nil => cases hj
  | cons g gs ih =>
    by_cases hc : g.contains a = true
    · have e : writeSegments (g :: gs) a v = { g with bytes := Memory.write g.bytes a.toNat v } :: gs := if_pos hc
      simp only [e]
      cases j with
      | zero => exact ⟨fun h => absurd hc (by simpa using h), fun b hb => Memory.read_write_other g.bytes v hb⟩
      | succ j => exact ⟨fun _ => rfl, fun _ _ => rfl⟩
    · have e : writeSegments (g :: gs) a v = g :: writeSegments gs a v := if_neg hc
      simp only [e] at hk ⊢
      cases j with
      | zero => exact ⟨fun _ => rfl, fun _ _ => rfl⟩
      | succ j => exact ih j (Nat.lt_of_succ_lt_succ hj) (Nat.lt_of_succ_lt_succ hk)

/-- `MemWrite` keeps every segment's canonical form (R63). -/
theorem State.memWrite_keeps_canonical {s t : State} {a : Word} {v : Byte} (h : s.memWrite a v = .ok t)
    (hs : s.segments.all Segment.wf = true) : t.segments.all Segment.wf = true := by
  unfold State.memWrite at h
  split at h
  · cases h
  · cases h
    exact writeSegments_wf a v hs
  · cases h

/-- `allocate` keeps every segment's canonical form (R65). -/
theorem State.allocateWith_keeps_canonical {cap : Word} {s t : State} {n : Word} (h : s.allocateWith cap n = .ok t)
    (hs : s.segments.all Segment.wf = true) : t.segments.all Segment.wf = true := by
  rcases s.allocateWith_cases cap n with ⟨-, -, h'⟩ | ⟨-, h'⟩ <;> rw [h'] at h <;> cases h
  simp [hs, Segment.fresh_wf]

/-- The memory of the reset state is in canonical form. -/
theorem State.reset_canonical : State.reset.segments.all Segment.wf = true := rfl

end Sys2Proof.Machine
end

