-- ==== Sys2Proof/Laws/PerInstr.lean ====
section
/-! SUPPORT. One lemma per constructor of Instr about its encoding (R90, R92). -/

namespace Sys2Proof.Laws

/-- The encoding begins with the opcode byte of the instruction's class and has the length R92 gives it. -/
def EncodedLength.Statement (i : Instr) : Prop :=
  (encode i).head? = some (opcodeMap i.opcode) ∧ (encode i).length = i.length

theorem EncodedLength.nop : EncodedLength.Statement .nop :=
  ⟨rfl, rfl⟩

theorem EncodedLength.loadInt : EncodedLength.Statement .loadInt :=
  ⟨rfl, rfl⟩

theorem EncodedLength.loadInt8 (dst : Byte) (imm : BitVec 8) : EncodedLength.Statement (.loadInt8 dst imm) :=
  ⟨rfl, rfl⟩

theorem EncodedLength.loadInt16 (dst : Byte) (imm : BitVec 16) : EncodedLength.Statement (.loadInt16 dst imm) :=
  ⟨rfl, rfl⟩

theorem EncodedLength.loadInt32 (dst : Byte) (imm : BitVec 32) : EncodedLength.Statement (.loadInt32 dst imm) :=
  ⟨rfl, rfl⟩

theorem EncodedLength.loadInt64 (dst : Byte) (imm : BitVec 64) : EncodedLength.Statement (.loadInt64 dst imm) :=
  ⟨rfl, rfl⟩

theorem EncodedLength.loadIntMem (dst addr size : Byte) : EncodedLength.Statement (.loadIntMem dst addr size) :=
  ⟨rfl, rfl⟩

theorem EncodedLength.loadStr (dst : Byte) (str : List Byte) : EncodedLength.Statement (.loadStr dst str) :=
  ⟨rfl, by simp [encode, encodeWith, operandBytes, Instr.length]; omega⟩

theorem EncodedLength.storeStr (dst : Byte) (str : List Byte) : EncodedLength.Statement (.storeStr dst str) :=
  ⟨rfl, by simp [encode, encodeWith, operandBytes, Instr.length]; omega⟩

theorem EncodedLength.storeInt : EncodedLength.Statement .storeInt :=
  ⟨rfl, rfl⟩

theorem EncodedLength.storeInt8 : EncodedLength.Statement .storeInt8 :=
  ⟨rfl, rfl⟩

theorem EncodedLength.storeInt16 : EncodedLength.Statement .storeInt16 :=
  ⟨rfl, rfl⟩

theorem EncodedLength.storeInt32 : EncodedLength.Statement .storeInt32 :=
  ⟨rfl, rfl⟩

theorem EncodedLength.storeInt64 : EncodedLength.Statement .storeInt64 :=
  ⟨rfl, rfl⟩

theorem EncodedLength.incInt (reg : Byte) : EncodedLength.Statement (.incInt reg) :=
  ⟨rfl, rfl⟩

theorem EncodedLength.decInt (reg : Byte) : EncodedLength.Statement (.decInt reg) :=
  ⟨rfl, rfl⟩

theorem EncodedLength.addInt (dst src1 src2 : Byte) : EncodedLength.Statement (.addInt dst src1 src2) :=
  ⟨rfl, rfl⟩

theorem EncodedLength.subInt (dst src1 src2 : Byte) : EncodedLength.Statement (.subInt dst src1 src2) :=
  ⟨rfl, rfl⟩

theorem EncodedLength.mulInt (dst src1 src2 : Byte) : EncodedLength.Statement (.mulInt dst src1 src2) :=
  ⟨rfl, rfl⟩

theorem EncodedLength.divInt (dst src1 src2 : Byte) : EncodedLength.Statement (.divInt dst src1 src2) :=
  ⟨rfl, rfl⟩

theorem EncodedLength.modInt (dst src1 src2 : Byte) : EncodedLength.Statement (.modInt dst src1 src2) :=
  ⟨rfl, rfl⟩

theorem EncodedLength.printInt (reg : Byte) : EncodedLength.Statement (.printInt reg) :=
  ⟨rfl, rfl⟩

theorem EncodedLength.printStr (reg : Byte) : EncodedLength.Statement (.printStr reg) :=
  ⟨rfl, rfl⟩

theorem EncodedLength.random (dst : Byte) : EncodedLength.Statement (.random dst) :=
  ⟨rfl, rfl⟩

theorem EncodedLength.jmp8 (disp : BitVec 8) : EncodedLength.Statement (.jmp8 disp) :=
  ⟨rfl, rfl⟩

theorem EncodedLength.jmp16 (disp : BitVec 16) : EncodedLength.Statement (.jmp16 disp) :=
  ⟨rfl, rfl⟩

theorem EncodedLength.jmp32 (disp : BitVec 32) : EncodedLength.Statement (.jmp32 disp) :=
  ⟨rfl, rfl⟩

theorem EncodedLength.jmp64 (disp : BitVec 64) : EncodedLength.Statement (.jmp64 disp) :=
  ⟨rfl, rfl⟩

theorem EncodedLength.jmpInt (reg : Byte) : EncodedLength.Statement (.jmpInt reg) :=
  ⟨rfl, rfl⟩

theorem EncodedLength.jmpLe8 (cmp regA regB : Byte) (disp : BitVec 8) : EncodedLength.Statement (.jmpLe8 cmp regA regB disp) :=
  ⟨rfl, rfl⟩

theorem EncodedLength.jmpLe16 (cmp regA regB : Byte) (disp : BitVec 16) : EncodedLength.Statement (.jmpLe16 cmp regA regB disp) :=
  ⟨rfl, rfl⟩

theorem EncodedLength.jmpLe32 (cmp regA regB : Byte) (disp : BitVec 32) : EncodedLength.Statement (.jmpLe32 cmp regA regB disp) :=
  ⟨rfl, rfl⟩

theorem EncodedLength.jmpLe64 (cmp regA regB : Byte) (disp : BitVec 64) : EncodedLength.Statement (.jmpLe64 cmp regA regB disp) :=
  ⟨rfl, rfl⟩

theorem EncodedLength.jmpLeInt (cmp regA regB target : Byte) : EncodedLength.Statement (.jmpLeInt cmp regA regB target) :=
  ⟨rfl, rfl⟩

theorem EncodedLength.mov (dst src : Byte) : EncodedLength.Statement (.mov dst src) :=
  ⟨rfl, rfl⟩

theorem EncodedLength.heap (reg : Byte) : EncodedLength.Statement (.heap reg) :=
  ⟨rfl, rfl⟩

theorem EncodedLength.info (dst code : Byte) : EncodedLength.Statement (.info dst code) :=
  ⟨rfl, rfl⟩

theorem EncodedLength.stop : EncodedLength.Statement .stop :=
  ⟨rfl, rfl⟩

end Sys2Proof.Laws
end

