-- ==== Sys2Proof/Machine/Assembly.lean ====
section
/-! DEFINITION. The spec's own assembly syntax (R112, R113): lines of words to instruction bytes. The engine itself
never reads it; the spec's scope keeps it (R6). Log 22. -/

namespace Sys2Proof

/-- An operand as written: a word (a register, number, name or label), or a quoted string as its bytes (R112). -/
inductive AsmOperand where
  | word (chars : List Char)
  | quoted (bytes : List Byte)
deriving DecidableEq, Repr

/-- A line: an optional label, a mnemonic, the operands in the order of their bytes (R112). -/
structure AsmLine where
  label : Option (List Char)
  mnemonic : List Char
  operands : List AsmOperand
deriving DecidableEq, Repr

/-! ## Operand spellings -/

/-- The value of a digit, upper or lower case; any other character has none below 16. -/
def digitValue (c : Char) : Nat :=
  let n := c.toNat
  if 48 ≤ n ∧ n ≤ 57 then n - 48
  else if 97 ≤ n ∧ n ≤ 102 then n - 87
  else if 65 ≤ n ∧ n ≤ 70 then n - 55
  else 16

/-- The value of digits after `acc`. -/
def digitsValue (base : Nat) : Nat → List Char → Option Nat
  | acc, [] => some acc
  | acc, c :: l => if digitValue c < base then digitsValue base (base * acc + digitValue c) l else none

/-- A decimal or `0x` hexadecimal number (R112). -/
def asmNumber : List Char → Option Nat
  | [] => none
  | '0' :: 'x' :: c :: l => digitsValue 16 0 (c :: l)
  | c :: l => digitsValue 10 0 (c :: l)

/-- A signed number (R112). -/
def asmSigned : List Char → Option Int
  | '+' :: l => (asmNumber l).map fun n => (n : Int)
  | '-' :: l => (asmNumber l).map fun n => -(n : Int)
  | l => (asmNumber l).map fun n => (n : Int)

/-- `r0` to `r15`, or `pc` for PC_INDEX (R112). -/
def asmRegister : AsmOperand → Option Byte
  | .word ['p', 'c'] => some 0x10
  | .word ('r' :: c :: l) =>
    match digitsValue 10 0 (c :: l) with
    | some n => if n < 16 ∧ (c ≠ '0' ∨ l = []) then some (BitVec.ofNat 8 n) else none
    | none => none
  | _ => none

/-- An immediate, size or info field of w bits (R112). -/
def asmImmediate (w : Nat) : AsmOperand → Option (BitVec w)
  | .word cs =>
    match asmNumber cs with
    | some n => if n < 2 ^ w then some (BitVec.ofNat w n) else none
    | none => none
  | .quoted _ => none

/-- The names of the comparison codes 0 to 15, in order (R112). -/
def cmpNames : List (List Char) :=
  [['e', 'q'], ['l', 't'], ['g', 't'], ['l', 'e'], ['g', 'e'], ['n', 'e'], ['a', 'z'], ['b', 'z'],
   ['l', 'a', 'n', 'd'], ['l', 'o', 'r'], ['c', '1', '0'], ['c', '1', '1'], ['c', '1', '2'], ['c', '1', '3'],
   ['x', 'o', 'r'], ['m', 'o', 'd']]

/-- A comparison code: a number 0 to 15 or a name (R112). -/
def asmCmp : AsmOperand → Option Byte
  | .word cs =>
    match cmpNames.findIdx? (· == cs) with
    | some n => some (BitVec.ofNat 8 n)
    | none =>
      match asmNumber cs with
      | some n => if n < 16 then some (BitVec.ofNat 8 n) else none
      | none => none
  | .quoted _ => none

/-- A displacement of w bits, as an integer that must fit. -/
def fitSigned (w : Nat) (d : Int) : Option (BitVec w) :=
  if -(2 ^ (w - 1) : Int) ≤ d ∧ d < 2 ^ (w - 1) then some (BitVec.ofInt w d) else none

/-- A displacement: a signed number, or a label L encoded as L minus the address of the next instruction (R112). -/
def asmDisplacement (w : Nat) (labels : List Char → Option Word) (next : Word) : AsmOperand → Option (BitVec w)
  | .word cs =>
    match asmSigned cs with
    | some d => fitSigned w d
    | none => match labels cs with
      | some l => fitSigned w (l - next).toInt
      | none => none
  | .quoted _ => none

/-- A quoted string: no 0x00 byte inside (R112). -/
def asmString : AsmOperand → Option (List Byte)
  | .quoted bs => if strOk bs then some bs else none
  | .word _ => none

/-! ## Lines -/

/-- Every mnemonic of the closed set as written, with its opcode class; STORE_STR is a second name (R113). -/
def asmMnemonics : List (String × Instr) :=
  [("NOP", .nop), ("LOAD_INT", .loadInt), ("LOAD_INT8", .loadInt8 0 0), ("LOAD_INT16", .loadInt16 0 0),
   ("LOAD_INT32", .loadInt32 0 0), ("LOAD_INT64", .loadInt64 0 0), ("LOAD_INT_MEM", .loadIntMem 0 0 0),
   ("LOAD_STR", .loadStr 0 []), ("STORE_STR", .storeStr 0 []), ("STORE_INT", .storeInt), ("STORE_INT8", .storeInt8),
   ("STORE_INT16", .storeInt16), ("STORE_INT32", .storeInt32), ("STORE_INT64", .storeInt64), ("INC_INT", .incInt 0),
   ("DEC_INT", .decInt 0), ("ADD_INT", .addInt 0 0 0), ("SUB_INT", .subInt 0 0 0), ("MUL_INT", .mulInt 0 0 0),
   ("DIV_INT", .divInt 0 0 0), ("MOD_INT", .modInt 0 0 0)] ++
  [("PRINT_INT", .printInt 0), ("PRINT_STR", .printStr 0), ("RANDOM", .random 0), ("JMP8", .jmp8 0),
   ("JMP16", .jmp16 0), ("JMP32", .jmp32 0), ("JMP64", .jmp64 0), ("JMP_INT", .jmpInt 0), ("JMP_LE8", .jmpLe8 0 0 0 0),
   ("JMP_LE16", .jmpLe16 0 0 0 0), ("JMP_LE32", .jmpLe32 0 0 0 0), ("JMP_LE64", .jmpLe64 0 0 0 0),
   ("JMP_LE_INT", .jmpLeInt 0 0 0 0), ("MOV", .mov 0 0), ("HEAP", .heap 0), ("INFO", .info 0 0), ("STOP", .stop)]

/-- The instruction of a mnemonic, its operands still zero. -/
def asmShape (cs : List Char) : Option Instr := (asmMnemonics.find? fun p => p.1.toList == cs).map (·.2)

/-- One register operand. -/
def asmR (mk : Byte → Instr) : List AsmOperand → Option Instr
  | [a] => do some (mk (← asmRegister a))
  | _ => none

/-- Two register operands. -/
def asmRR (mk : Byte → Byte → Instr) : List AsmOperand → Option Instr
  | [a, b] => do some (mk (← asmRegister a) (← asmRegister b))
  | _ => none

/-- Three register operands. -/
def asmRRR (mk : Byte → Byte → Byte → Instr) : List AsmOperand → Option Instr
  | [a, b, c] => do some (mk (← asmRegister a) (← asmRegister b) (← asmRegister c))
  | _ => none

/-- A register and an immediate of w bits. -/
def asmRI {w : Nat} (mk : Byte → BitVec w → Instr) : List AsmOperand → Option Instr
  | [a, b] => do some (mk (← asmRegister a) (← asmImmediate w b))
  | _ => none

/-- A register and a string. -/
def asmRZ (mk : Byte → List Byte → Instr) : List AsmOperand → Option Instr
  | [a, b] => do some (mk (← asmRegister a) (← asmString b))
  | _ => none

/-- A displacement of w bits. -/
def asmD {w : Nat} (disp : (w : Nat) → AsmOperand → Option (BitVec w)) (mk : BitVec w → Instr) :
    List AsmOperand → Option Instr
  | [a] => do some (mk (← disp w a))
  | _ => none

/-- A comparison code, two registers, a displacement of w bits. -/
def asmCRRD {w : Nat} (disp : (w : Nat) → AsmOperand → Option (BitVec w)) (mk : Byte → Byte → Byte → BitVec w → Instr) :
    List AsmOperand → Option Instr
  | [a, b, c, d] => do some (mk (← asmCmp a) (← asmRegister b) (← asmRegister c) (← disp w d))
  | _ => none

/-- The instruction a line stands for, at an address (R112). -/
def assembleLine (labels : List Char → Option Word) (addr : Word) (line : AsmLine) : Option Instr := do
  let shape ← asmShape line.mnemonic
  let disp := fun w => asmDisplacement w labels (addr + BitVec.ofNat 64 shape.length)
  let ops := line.operands
  match shape with
  | .loadInt8 .. => asmRI .loadInt8 ops
  | .loadInt16 .. => asmRI .loadInt16 ops
  | .loadInt32 .. => asmRI .loadInt32 ops
  | .loadInt64 .. => asmRI .loadInt64 ops
  | .loadIntMem .. =>
    match ops with
    | [a, b, c] => do some (.loadIntMem (← asmRegister a) (← asmRegister b) (← asmImmediate 8 c))
    | _ => none
  | .loadStr .. => asmRZ .loadStr ops
  | .storeStr .. => asmRZ .storeStr ops
  | .incInt _ => asmR .incInt ops
  | .decInt _ => asmR .decInt ops
  | .addInt .. => asmRRR .addInt ops
  | .subInt .. => asmRRR .subInt ops
  | .mulInt .. => asmRRR .mulInt ops
  | .divInt .. => asmRRR .divInt ops
  | .modInt .. => asmRRR .modInt ops
  | .printInt _ => asmR .printInt ops
  | .printStr _ => asmR .printStr ops
  | .random _ => asmR .random ops
  | .jmp8 _ => asmD disp .jmp8 ops
  | .jmp16 _ => asmD disp .jmp16 ops
  | .jmp32 _ => asmD disp .jmp32 ops
  | .jmp64 _ => asmD disp .jmp64 ops
  | .jmpInt _ => asmR .jmpInt ops
  | .jmpLe8 .. => asmCRRD disp .jmpLe8 ops
  | .jmpLe16 .. => asmCRRD disp .jmpLe16 ops
  | .jmpLe32 .. => asmCRRD disp .jmpLe32 ops
  | .jmpLe64 .. => asmCRRD disp .jmpLe64 ops
  | .jmpLeInt .. =>
    match ops with
    | [a, b, c, d] => do some (.jmpLeInt (← asmCmp a) (← asmRegister b) (← asmRegister c) (← asmRegister d))
    | _ => none
  | .mov .. => asmRR .mov ops
  | .heap _ => asmR .heap ops
  | .info .. => asmRI .info ops
  | .nop | .stop | .loadInt | .storeInt | .storeInt8 | .storeInt16 | .storeInt32 | .storeInt64 =>
    if ops = [] then some shape else none

/-! ## Programs -/

/-- The length of a line's instruction, known before any label is: a string's length is in the line (R100). -/
def lineLength (line : AsmLine) : Option Nat := do
  let shape ← asmShape line.mnemonic
  match line.operands with
  | [_, .quoted bs] => some (shape.length + bs.length)
  | _ => some shape.length

/-- The address of a label: that of the line it starts (R112). The first line with the label counts. -/
def labelAddress (name : List Char) : Word → List AsmLine → Option Word
  | _, [] => none
  | addr, line :: lines =>
    if line.label = some name then some addr
    else do labelAddress name (addr + BitVec.ofNat 64 (← lineLength line)) lines

/-- The bytes of lines from an address on, under a label table. -/
def assembleFrom (labels : List Char → Option Word) : Word → List AsmLine → Option (List Byte)
  | _, [] => some []
  | addr, line :: lines => do
    let i ← assembleLine labels addr line
    let rest ← assembleFrom labels (addr + BitVec.ofNat 64 i.length) lines
    some (encode i ++ rest)

/-- The image a program assembles to, its first instruction at address 0; none where a line does not follow R112. -/
def assemble (lines : List AsmLine) : Option (List Byte) :=
  assembleFrom (fun name => labelAddress name 0 lines) 0 lines

end Sys2Proof
end

