-- ==== Sys2Proof/Tests/Slice0.lean ====
section
/-! SUPPORT. Tests of one step each, their expected results from the vectors of spec/95_test_vectors.md and the
examples of the instruction rules; decoding of words written out from the spec; the smoke test of WellFormed; and a
witness for the hypotheses of every statement. -/

namespace Sys2Proof.Tests

open Sys2Proof.Machine

/-! ## Helpers -/

/-- An engine constructed over an image, with values the host put into registers. -/
def boot (img : List Byte) (rs : List (Nat × Value)) : State :=
  rs.foldl (fun s r => if h : r.1 < 16 then s.setReg r.1 r.2 h else s) (State.construct img)

/-- A field of the next state. -/
def nextIs {α : Type} (r : StepResult) (f : State → α) : Option α :=
  match r with
  | .next t => some (f t)
  | _ => none

/-- A register after one step. -/
def regAfter (s : State) (i : Fin 16) : Option Value := nextIs (step s) (·.regs[i])

/-- The pc after one step. -/
def pcAfter (s : State) : Option Word := nextIs (step s) (·.pc)

/-- The fault after one step, if any. -/
def faultAfter (s : State) : Option FaultCause :=
  match step s with
  | .next t => match t.status with
    | .faulted f => some f.cause
    | _ => none
  | _ => none

/-- The output after one step. -/
def outAfter (s : State) : Option (List Byte) := nextIs (step s) (·.out)

/-- A state with heap segments built before the vector (95, section 3.2). -/
def withHeap (s : State) (segs : List (Word × Word)) (cursor : Word) : State :=
  { s with segments := segs.map fun p => ⟨p.1, p.2, []⟩, cursor := cursor }

/-! ## WellFormed: an ill-formed term for its one check -/

theorem test_loadStr_with_nul_is_ill_formed : (Instr.loadStr 0 [0x41, 0x00, 0x42]).wellFormed = false := by decide
theorem test_storeStr_with_nul_is_ill_formed : (Instr.storeStr 0 [0x00]).wellFormed = false := by decide
theorem test_loadStr_empty_is_well_formed : (Instr.loadStr 0x20 []).wellFormed = true := by decide

/-! ## Decoding: words written out from R92 and R93 -/

theorem test_decode_nop : decode [0x00] = .instr .nop [] := by decide
theorem test_decode_loadInt : decode [0x01, 0x02] = .instr .loadInt [0x02] := by decide
theorem test_decode_loadInt8 : decode [0x02, 0x00, 0x04] = .instr (.loadInt8 0 4) [] := by decide
theorem test_decode_loadInt16 : decode [0x03, 0x05, 0x12, 0x34] = .instr (.loadInt16 5 0x1234) [] := by decide
theorem test_decode_loadInt32 :
    decode [0x04, 0x01, 0x12, 0x34, 0x56, 0x78] = .instr (.loadInt32 1 0x12345678) [] := by decide
theorem test_decode_loadInt64 : decode [0x05, 0x03, 0x01, 0x23, 0x45, 0x67, 0x89, 0xAB, 0xCD, 0xEF] =
    .instr (.loadInt64 3 0x0123456789ABCDEF) [] := by decide
theorem test_decode_loadIntMem : decode [0x06, 0x01, 0x00, 0x02] = .instr (.loadIntMem 1 0 2) [] := by decide
theorem test_decode_loadStr :
    decode [0x07, 0x00, 0x48, 0x69, 0x00, 0x24] = .instr (.loadStr 0 [0x48, 0x69]) [0x24] := by decide
theorem test_decode_storeStr_is_loadStr :
    decode (encode (.storeStr 1 [])) = .instr (.loadStr 1 []) [] := by decide
theorem test_decode_storeInt : decode [0x08] = .instr .storeInt [] := by decide
theorem test_decode_storeInt8 : decode [0x09] = .instr .storeInt8 [] := by decide
theorem test_decode_storeInt16 : decode [0x0A] = .instr .storeInt16 [] := by decide
theorem test_decode_storeInt32 : decode [0x0B] = .instr .storeInt32 [] := by decide
theorem test_decode_storeInt64 : decode [0x0C] = .instr .storeInt64 [] := by decide
theorem test_decode_incInt : decode [0x0D, 0x07] = .instr (.incInt 7) [] := by decide
theorem test_decode_decInt : decode [0x0E, 0x10] = .instr (.decInt 0x10) [] := by decide
theorem test_decode_addInt : decode [0x0F, 0x02, 0x00, 0x01] = .instr (.addInt 2 0 1) [] := by decide
theorem test_decode_subInt : decode [0x10, 0x02, 0x00, 0x01] = .instr (.subInt 2 0 1) [] := by decide
theorem test_decode_mulInt : decode [0x11, 0x02, 0x00, 0x01] = .instr (.mulInt 2 0 1) [] := by decide
theorem test_decode_divInt : decode [0x12, 0x02, 0x00, 0x01] = .instr (.divInt 2 0 1) [] := by decide
theorem test_decode_modInt : decode [0x13, 0x02, 0x00, 0x01] = .instr (.modInt 2 0 1) [] := by decide
theorem test_decode_printInt : decode [0x14, 0x02] = .instr (.printInt 2) [] := by decide
theorem test_decode_printStr : decode [0x15, 0x00] = .instr (.printStr 0) [] := by decide
theorem test_decode_random : decode [0x16, 0x05] = .instr (.random 5) [] := by decide
theorem test_decode_jmp8 : decode [0x17, 0xFC] = .instr (.jmp8 0xFC) [] := by decide
theorem test_decode_jmp16 : decode [0x18, 0x01, 0x00] = .instr (.jmp16 256) [] := by decide
theorem test_decode_jmp32 : decode [0x19, 0xFF, 0xFF, 0xFF, 0xF1] = .instr (.jmp32 0xFFFFFFF1) [] := by decide
theorem test_decode_jmp64 :
    decode [0x1A, 0x00, 0x00, 0x00, 0x00, 0x00, 0x00, 0x00, 0x02] = .instr (.jmp64 2) [] := by decide
theorem test_decode_jmpInt : decode [0x1B, 0x04] = .instr (.jmpInt 4) [] := by decide
theorem test_decode_jmpLe8 : decode [0x1C, 0x00, 0x00, 0x01, 0x02] = .instr (.jmpLe8 0 0 1 2) [] := by decide
theorem test_decode_jmpLe16 :
    decode [0x1D, 0x01, 0x00, 0x01, 0x00, 0x10] = .instr (.jmpLe16 1 0 1 16) [] := by decide
theorem test_decode_jmpLe32 :
    decode [0x1E, 0x02, 0x00, 0x01, 0x00, 0x00, 0x00, 0x04] = .instr (.jmpLe32 2 0 1 4) [] := by decide
theorem test_decode_jmpLe64 : decode [0x1F, 0x04, 0x00, 0x01, 0xFF, 0xFF, 0xFF, 0xFF, 0xFF, 0xFF, 0xFF, 0xF4] =
    .instr (.jmpLe64 4 0 1 0xFFFFFFFFFFFFFFF4) [] := by decide
theorem test_decode_jmpLeInt : decode [0x20, 0x00, 0x00, 0x01, 0x02] = .instr (.jmpLeInt 0 0 1 2) [] := by decide
theorem test_decode_mov : decode [0x21, 0x03, 0x01] = .instr (.mov 3 1) [] := by decide
theorem test_decode_heap : decode [0x22, 0x00] = .instr (.heap 0) [] := by decide
theorem test_decode_info : decode [0x23, 0x00, 0x03] = .instr (.info 0 3) [] := by decide
theorem test_decode_stop : decode [0x24] = .instr .stop [] := by decide
theorem test_decode_unassigned_25 : decode [0x25, 0x00] = .unassigned 0x25 := by decide
theorem test_decode_unassigned_FF : decode [0xFF] = .unassigned 0xFF := by decide
theorem test_decode_truncated : decode [0x02, 0x00] = .truncated := by decide
theorem test_decode_string_without_end : decode [0x07, 0x00, 0x41, 0x42] = .truncated := by decide

theorem test_table_word_addInt : decodeTableWord 8 0x0F = some (.addInt 0 0 0) := by decide
theorem test_table_word_loadInt16 : decodeTableWord 32 0x34120503 = some (.loadInt16 5 0x1234) := by decide
theorem test_table_word_unassigned : decodeTableWord 8 0x25 = none := by decide

/-! ## Assembly: the examples of R112 -/

/-- A line without a label whose operands are words. -/
def asmLine (mnemonic : String) (ops : List String) : AsmLine := ⟨none, mnemonic.toList, ops.map (.word ·.toList)⟩

theorem test_asm_loadInt8 : assemble [asmLine "LOAD_INT8" ["r0", "4"]] = some [0x02, 0x00, 0x04] := by decide
theorem test_asm_addInt : assemble [asmLine "ADD_INT" ["r2", "r0", "r1"]] = some [0x0F, 0x02, 0x00, 0x01] := by decide
theorem test_asm_jmpLe8 :
    assemble [asmLine "JMP_LE8" ["eq", "r0", "r1", "+2"]] = some [0x1C, 0x00, 0x00, 0x01, 0x02] := by decide
theorem test_asm_label_back : assemble [asmLine "NOP" [], { asmLine "INFO" ["pc", "0x1"] with label := some ['L'] },
    asmLine "JMP8" ["L"]] = some [0x00, 0x23, 0x10, 0x01, 0x17, 0xFB] := by decide
theorem test_asm_invalid_register : assemble [asmLine "INC_INT" ["r16"]] = none := by decide

/-! ## Fetch and dispatch (95, section 2) -/

theorem test_FD1_no_image : faultAfter { State.reset with image := none } = some .invalidMemory := by decide
theorem test_FD2_empty_image : faultAfter State.reset = some (.outOfBounds 0) := by decide
theorem test_FD2_counts_nothing : nextIs (step State.reset) (·.tick) = some 0 := by decide
theorem test_FD7_unassigned : faultAfter (boot [0x25] []) = some (.invalidOpcode 0x25) := by decide
theorem test_FD8_permissive : (boot [0x25] []).unbound .permissive 0x25 = boot [0x25] [] := rfl
theorem test_FD10_truncated : faultAfter (boot [0x07, 0x00] []) = some (.outOfBounds 2) := by decide
theorem test_FD10_counts : nextIs (step (boot [0x07, 0x00] [])) (fun t => (t.tick, t.curOp)) = some (1, 0x07) := by
  decide
theorem test_table_word_runs : step (State.reset.withFetchWord 8 0x24) =
    .next { State.reset with
      image := some ([0x24] ++ List.replicate 11 0), pc := 1, tick := 1, curOp := 0x24, stepped := true,
      status := .halted } := rfl

/-! ## Integer instructions (95, sections 3.1 to 3.4) -/

theorem test_LD1_zero_extended : regAfter (boot [0x02, 0x00, 0xFF] []) 0 = some (.int 255) := by decide
theorem test_LD2_into_the_pc : pcAfter (boot [0x02, 0x10, 0x05, 0x00, 0x00, 0x24] []) = some 5 := by decide
theorem test_LD3_invalid : faultAfter (boot [0x02, 0x11, 0x00] []) = some (.invalidRegister 0x11) := by decide
theorem test_LD5_loadInt16 : regAfter (boot [0x03, 0x05, 0x12, 0x34] []) 5 = some (.int 0x1234) := by decide
theorem test_LD6_loadInt16 : regAfter (boot [0x03, 0x05, 0xFF, 0xFF] []) 5 = some (.int 65535) := by decide
theorem test_LD7_loadInt32 :
    regAfter (boot [0x04, 0x01, 0xFF, 0xFF, 0xFF, 0xFF] []) 1 = some (.int 4294967295) := by decide
theorem test_LD8_loadInt64 : regAfter (boot [0x05, 0x03, 0xFF, 0xFF, 0xFF, 0xFF, 0xFF, 0xFF, 0xFF, 0xFF]
    [(3, .bytes [0x78])]) 3 = some (.int 0xFFFFFFFFFFFFFFFF) := by decide
theorem test_FD5_loadInt : faultAfter (boot [0x01] []) = some (.invalidOpcode 0x01) := by decide
theorem test_FD6_storeInt : faultAfter (boot [0x08] []) = some (.invalidOpcode 0x08) := by decide
theorem test_FD6_storeInt8 : faultAfter (boot [0x09] []) = some (.invalidOpcode 0x09) := by decide
theorem test_FD6_storeInt16 : faultAfter (boot [0x0A] []) = some (.invalidOpcode 0x0A) := by decide
theorem test_FD6_storeInt32 : faultAfter (boot [0x0B] []) = some (.invalidOpcode 0x0B) := by decide
theorem test_FD6_storeInt64 : faultAfter (boot [0x0C] []) = some (.invalidOpcode 0x0C) := by decide
theorem test_ME8_spans_image_and_heap :
    regAfter (withHeap (boot [0x06, 0x01, 0x00, 0x04] [(0, .int 2)]) [(4, 10)] 14) 1 = some (.int 0x00040000) := by
  decide
theorem test_ME9_past_the_heap :
    faultAfter (withHeap (boot [0x06, 0x01, 0x00, 0x04] [(0, .int 6)]) [(4, 4)] 8) = some (.invalidHeapAccess 8) := by
  decide
theorem test_AR1_inc_wraps : regAfter (boot [0x0D, 0x00] [(0, .int 0xFFFFFFFFFFFFFFFF)]) 0 = some (.int 0) := by
  decide
theorem test_AR4_inc_pc : pcAfter (boot [0x0D, 0x10, 0x00, 0x24] []) = some 3 := by decide
theorem test_AR5_dec_wraps : regAfter (boot [0x0E, 0x00] [(0, .int 0)]) 0 = some (.int 0xFFFFFFFFFFFFFFFF) := by
  decide
theorem test_AR6_dec_pc : pcAfter (boot [0x0E, 0x10] []) = some 1 := by decide
theorem test_AR8_add_to_itself : regAfter (boot [0x0F, 0x00, 0x00, 0x00] [(0, .int 21)]) 0 = some (.int 42) := by
  decide
theorem test_AR9_add_reads_the_pc : regAfter (boot [0x0F, 0x02, 0x10, 0x00] [(0, .int 5)]) 2 = some (.int 9) := by
  decide
theorem test_AR13_sub_order : regAfter (boot [0x10, 0x02, 0x00, 0x01] [(0, .int 3), (1, .int 5)]) 2 =
    some (.int 0xFFFFFFFFFFFFFFFE) := by decide
theorem test_AR16_mul_discards :
    regAfter (boot [0x11, 0x02, 0x00, 0x01] [(0, .int 0x100000000), (1, .int 0x100000000)]) 2 = some (.int 0) := by
  decide
theorem test_AR18_div : regAfter (boot [0x12, 0x02, 0x00, 0x01] [(0, .int 7), (1, .int 2)]) 2 = some (.int 3) := by
  decide
theorem test_AR21_div_zero_before_dest :
    faultAfter (boot [0x12, 0x11, 0x00, 0x01] [(0, .int 7), (1, .int 0)]) = some .divideByZero := by decide
theorem test_AR23_mod : regAfter (boot [0x13, 0x02, 0x00, 0x01] [(0, .int 0xFFFFFFFFFFFFFFFF), (1, .int 10)]) 2 =
    some (.int 5) := by decide
theorem test_EX4_mod_zero_keeps_dest :
    regAfter (boot [0x13, 0x02, 0x00, 0x01] [(0, .int 7), (1, .int 0), (2, .bytes [0x6B])]) 2 =
      some (.bytes [0x6B]) := by decide
theorem test_EX1_printInt : outAfter (boot [0x14, 0x02] [(2, .int 305419900)]) =
    some [0x33, 0x30, 0x35, 0x34, 0x31, 0x39, 0x39, 0x30, 0x30] := by decide
theorem test_PR1_print_zero : outAfter (boot [0x14, 0x00] [(0, .int 0)]) = some [0x30] := by decide

/-! ## Strings (95, sections 3.4 and 3.5) -/

theorem test_ST1_loadStr : regAfter (boot [0x07, 0x00, 0x48, 0x69, 0x00] []) 0 = some (.bytes [0x48, 0x69]) := by
  decide
theorem test_ST3_loadStr_pc : faultAfter (boot [0x07, 0x10, 0x41, 0x00] []) = some (.typeMismatch 0x10) := by decide
theorem test_ST2_storeStr :
    nextIs (exec (.storeStr 1 []) (boot [] [(1, .int 5)])) (·.regs[1]) = some (.bytes []) := by decide
theorem test_PR6_printStr : outAfter (boot [0x15, 0x00] [(0, .bytes [0x48, 0x69])]) = some [0x48, 0x69] := by decide
theorem test_PR8_printStr_int : faultAfter (boot [0x15, 0x00] [(0, .int 1)]) = some (.typeMismatch 0) := by decide

/-! ## Jumps (95, sections 3.6 to 3.8) -/

theorem test_JU3_jmp8_back :
    pcAfter { boot [0, 0, 0, 0, 0, 0, 0x17, 0xFC] [] with pc := 6 } = some 4 := by decide
theorem test_JU4_jmp8_wraps : pcAfter (boot [0x17, 0x80] []) = some 0xFFFFFFFFFFFFFF82 := by decide
theorem test_JU6_jmp16 : pcAfter (boot [0x18, 0x01, 0x00] []) = some 259 := by decide
theorem test_JU8_jmp16_back : pcAfter (boot [0x18, 0x80, 0x00] []) = some 0xFFFFFFFFFFFF8003 := by decide
theorem test_JU10_jmp32 : pcAfter (boot [0x19, 0xFF, 0xFF, 0xFF, 0xFB] []) = some 0 := by decide
theorem test_JU11_jmp64 : pcAfter (boot [0x1A, 0, 0, 0, 0, 0, 0, 0, 0x02] []) = some 11 := by decide
theorem test_JU14_jmpInt_pc : pcAfter (boot [0x1B, 0x10] []) = some 2 := by decide
theorem test_JU15_jmpInt_type : faultAfter (boot [0x1B, 0x04] [(4, .bytes [])]) = some (.typeMismatch 4) := by decide
theorem test_CJ3_lt_taken :
    pcAfter (boot [0x1C, 0x01, 0x00, 0x01, 0xFB] [(0, .int 1), (1, .int 2)]) = some 0 := by decide
theorem test_CJ6_az_reads_b : faultAfter (boot [0x1C, 0x06, 0x00, 0x01, 0x00] [(0, .int 0)]) =
    some (.typeMismatch 1) := by decide
theorem test_CJ16_jmpLe16 :
    pcAfter (boot [0x1D, 0x01, 0x00, 0x01, 0x00, 0x10] [(0, .int 1), (1, .int 2)]) = some 22 := by decide
theorem test_CJ18_jmpLe32 :
    pcAfter (boot [0x1E, 0x02, 0x00, 0x01, 0, 0, 0, 0x04] [(0, .int 5), (1, .int 2)]) = some 12 := by decide
theorem test_CJ19_jmpLe32_not_taken :
    pcAfter (boot [0x1E, 0x03, 0x00, 0x01, 0, 0, 0, 0x04] [(0, .int 5), (1, .int 2)]) = some 8 := by decide
theorem test_CJ21_jmpLe64 :
    pcAfter (boot [0x1F, 0x04, 0x00, 0x01, 0xFF, 0xFF, 0xFF, 0xFF, 0xFF, 0xFF, 0xFF, 0xF4]
      [(0, .int 9), (1, .int 9)]) = some 0 := by decide
theorem test_CJ23_target_read_when_not_taken :
    faultAfter (boot [0x20, 0x05, 0x00, 0x01, 0x02] [(0, .int 2), (1, .int 2)]) = some (.typeMismatch 2) := by decide
theorem test_CJ24_target_pc :
    pcAfter (boot [0x20, 0x00, 0x00, 0x01, 0x10] [(0, .int 2), (1, .int 2)]) = some 5 := by decide
theorem test_CJ9_mod_taken : predicate 15 7 2 = .ok true := rfl
theorem test_CJ10_mod_not_taken : predicate 15 6 3 = .ok false := rfl

/-! ## Heap, info, move, random, stop (95, sections 3.9 and 3.10) -/

theorem test_HP1_allocate : (boot [0x22, 0x00] []).allocateWith 10 10 =
    .ok { boot [0x22, 0x00] [] with segments := [⟨2, 10, []⟩], cursor := 12 } := rfl
theorem test_HP4_allocate_exhausted : (boot [0x22, 0x00] []).allocateWith 8 10 = .error (.heapExhausted 10) := rfl
theorem test_HP9_heap_exhausted :
    exec (.heap 0) (boot [0x22, 0x00] [(0, .int 0xFFFFFFFFFFFFFFFF)]) =
      .next ((boot [0x22, 0x00] [(0, .int 0xFFFFFFFFFFFFFFFF)]).raise (.heapExhausted 0xFFFFFFFFFFFFFFFF)) := by
  have h : (boot [0x22, 0x00] [(0, .int 0xFFFFFFFFFFFFFFFF)]).allocate 0xFFFFFFFFFFFFFFFF =
      .error (.heapExhausted 0xFFFFFFFFFFFFFFFF) := if_pos (.inr (by decide))
  show State.complete _ (State.allocate _ 0xFFFFFFFFFFFFFFFF) = _
  rw [h]
  rfl
theorem test_IN3_tick : regAfter (boot [0x23, 0x00, 0x01] []) 0 = some (.int 1) := by decide
theorem test_IN7_code_first : faultAfter (boot [0x23, 0x11, 0x04] []) = some (.unimplementedInfoEntry 4) := by decide
theorem test_MV4_mov_float : regAfter (boot [0x21, 0x03, 0x01] [(1, .float 0x3FF0000000000000)]) 3 =
    some (.float 0x3FF0000000000000) := by decide
theorem test_MV7_source_first : faultAfter (boot [0x21, 0x10, 0x11] []) = some (.invalidRegister 0x11) := by decide
theorem test_MV10_random : regAfter (boot [0x16, 0x05] []) 5 = some (.int (Config.draw 0)) := rfl
theorem test_MV11_random_invalid : faultAfter (boot [0x16, 0x11] []) = some (.invalidRegister 0x11) := by decide
theorem test_FD3_nop : pcAfter { boot [0, 0, 0, 0, 0, 0] [] with pc := 5 } = some 6 := by decide
theorem test_FD4_stop : nextIs (step (boot [0x24] [])) (fun t => (t.status, t.pc, t.tick)) =
    some (.halted, 1, 1) := by decide
theorem test_EX5_write_reads_back :
    ((withHeap (boot [] []) [(4, 10), (14, 10)] 24).memWrite 20 0xAB >>= fun t => t.memRead 20) = .ok 0xAB := rfl

/-! ## The host: a run of [NOP, STOP] after its first step, and after its end -/

theorem test_load_during_run_refused :
    hostLoad [0x24] { boot [0x00, 0x24] [] with pc := 1, stepped := true } = .refused .hostWriteDuringRun := rfl
theorem test_load_after_halt :
    nextIs (hostLoad [0x24] { boot [0x24] [] with stepped := true, status := .halted })
      (fun t => (t.pc, t.status, t.image)) = some (0, .running, some [0x24]) := by decide

/-! ## Witnesses: states and operands that meet the hypotheses of a statement, each clause at its boundaries -/

/-- Registers: R[0] = 7, R[1] = 0, R[2] = 9, R[3] a string, R[4] unwritten, R[15] = 2^64 - 1. -/
def wit (img : List Byte) : State :=
  boot img [(0, .int 7), (1, .int 0), (2, .int 9), (3, .bytes [0x48]), (15, .int 0xFFFFFFFFFFFFFFFF)]

/-- A 4-byte image, a segment of 10 bytes with two bytes written, an empty segment, a segment of 10 bytes. -/
def heapWit : State :=
  { wit [0x00, 0x24, 0x02, 0x03] with
    segments := [⟨4, 10, [⟨4, 0xAB⟩, ⟨13, 0x01⟩]⟩, ⟨14, 0, []⟩, ⟨14, 10, []⟩], cursor := 24 }

/-- An opcode map that is not the default one. -/
def otherMap (o : Opcode) : Byte := opcodeMap o + 0xDB

theorem otherMap_index (o : Opcode) : opcodeList[(otherMap o - 0xDB).toNat]? = some o := by cases o <;> rfl

theorem witness_DecodeOfEncodeIsTheInstruction :
    (∀ o p, otherMap o = otherMap p → o = p) ∧ (Instr.loadStr 0xFF [0x41, 0xFF]).wellFormed = true ∧
      (Instr.jmpLe64 0xFF 0x10 0x00 0x8000000000000000).wellFormed = true :=
  ⟨fun o p h => by
    have := otherMap_index o
    rw [h, otherMap_index p] at this
    exact (Option.some.inj this).symm, by decide, by decide⟩

theorem witness_DecodedBytesAreTheEncoding :
    decode [0x07, 0x10, 0xFF, 0x00, 0x24] = .instr (.loadStr 0x10 [0xFF]) [0x24] ∧ decode [0x24] = .instr .stop [] := by
  decide

theorem witness_DefaultOpcodeMapIsInjective : opcodeMap .stop = opcodeMap .stop ∧ 0x24 < (0x25 : Byte).toNat ∧
    0x24 < (0xFF : Byte).toNat := by decide

theorem witness_FetchByteReadsTheImage :
    ({ wit [] with image := none } : State).image = none ∧
      ((wit []).image = some [] ∧ ([] : List Byte).length ≤ (wit []).pc.toNat) ∧
      ({ wit [0x24] with pc := 1 } : State).pc.toNat = [(0x24 : Byte)].length ∧
      ((wit [0x24]).image = some [0x24] ∧ (wit [0x24]).pc.toNat < [(0x24 : Byte)].length) := by decide

theorem witness_FetchFieldIsBigEndian :
    ({ wit [] with image := none } : State).image = none ∧ (wit [0x12, 0x34]).image = some [0x12, 0x34] ∧
      (wit [0x12, 0x34]).pc.toNat + 2 ≤ [(0x12 : Byte), 0x34].length ∧
      [(0x12 : Byte), 0x34].length < (wit [0x12, 0x34]).pc.toNat + 3 ∧
      [(0x12 : Byte), 0x34].length < 2 ^ 64 := by decide

theorem witness_StepRunsTheDecodedInstruction :
    (wit [0x02, 0x00, 0x04]).status = .running ∧ (wit [0x02, 0x00, 0x04]).image = some [0x02, 0x00, 0x04] ∧
      decode ([0x02, 0x00, 0x04].drop (wit [0x02, 0x00, 0x04]).pc.toNat) = .instr (.loadInt8 0 4) [] ∧
      decode ([0x02, 0x24].drop ({ wit [0x02, 0x24] with pc := 1 } : State).pc.toNat) = .instr .stop [] := by decide

theorem witness_OpcodeFetchFaultCountsNothing :
    (wit [0x24]).status = .running ∧ ({ wit [0x24] with image := none } : State).image = none ∧
      [(0x24 : Byte)].length ≤ ({ wit [0x24] with pc := 1 } : State).pc.toNat := by decide

theorem witness_TruncatedInstructionFaultsAtTheEnd :
    (wit [0x07, 0x00, 0x41]).pc.toNat < [(0x07 : Byte), 0x00, 0x41].length ∧ (wit [0x07, 0x00, 0x41]).status = .running ∧
      (wit [0x07, 0x00, 0x41]).image = some [0x07, 0x00, 0x41] ∧
      decode ([0x07, 0x00, 0x41].drop (wit [0x07, 0x00, 0x41]).pc.toNat) = .truncated ∧
      decode ([0x00, 0x0F].drop ({ wit [0x00, 0x0F] with pc := 1 } : State).pc.toNat) = .truncated := by decide

theorem witness_UnassignedOpcodeFaults :
    (wit [0x25]).pc.toNat < [(0x25 : Byte)].length ∧ (wit [0x25]).status = .running ∧ (wit [0x25]).image = some [0x25] ∧
      0x24 < ([(0x25 : Byte)][(wit [0x25]).pc.toNat]).toNat ∧ 0x24 < (0xFF : Byte).toNat := by decide

theorem witness_StepIsStuckUnlessRunning :
    ({ wit [] with status := .halted } : State).status = .halted ∧
      ({ wit [] with status := .faulted ⟨.divideByZero, 0x12⟩ } : State).status = .faulted ⟨.divideByZero, 0x12⟩ := by
  decide

theorem witness_StepAlwaysMovesWhileRunning : (wit []).status = .running ∧ heapWit.status = .running := by decide

theorem witness_StepCountsEachFetchedOpcode :
    (∃ t, step (wit []) = .next t ∧ (wit []).fetch8 = .error (.outOfBounds 0)) ∧
      (∃ t u, step (wit [0x24]) = .next t ∧ (wit [0x24]).fetch8 = .ok (0x24, u)) ∧
      ∃ t u, step (wit [0x25]) = .next t ∧ (wit [0x25]).fetch8 = .ok (0x25, u) :=
  ⟨⟨_, rfl, rfl⟩, ⟨_, _, rfl, rfl⟩, ⟨_, _, rfl, rfl⟩⟩

theorem heapWit_wf : heapWit.wf = true := by decide

theorem witness_ResetIsWellFormed :
    ([] : List Byte).length < 2 ^ 64 ∧ (List.replicate (2 ^ 64 - 1) (0 : Byte)).length < 2 ^ 64 ∧ heapWit.wf = true ∧
      (wit []).withinCapacity := ⟨by decide, by rw [List.length_replicate]; decide, heapWit_wf, Nat.zero_le _⟩

theorem witness_StepKeepsWellFormed : heapWit.wf = true ∧ ∃ t, step heapWit = .next t := ⟨heapWit_wf, _, rfl⟩

theorem witness_StepKeepsHeapBaseAndCapacity :
    (heapTotal heapWit.segments ≤ heapWit.cursor.toNat ∧ ∃ t, step heapWit = .next t) ∧ (wit []).withinCapacity :=
  ⟨⟨by decide, _, rfl⟩, Nat.zero_le _⟩

theorem witness_SegmentsOwnDisjointAddresses :
    heapWit.wf = true ∧ (heapWit.segments.map fun g => g.contains 4) = [true, false, false] ∧
      (heapWit.segments.map fun g => g.contains 13) = [true, false, false] ∧
      (heapWit.segments.map fun g => g.contains 14) = [false, false, true] ∧
      (heapWit.segments.map fun g => g.contains 23) = [false, false, true] := by decide

theorem witness_InstructionsKeepEngineRegisters :
    (∃ t, exec (.addInt 15 0 2) (wit []) = .next t) ∧ (∃ t, exec (.addInt 15 4 2) (wit []) = .next t) ∧
      ∃ t, exec (.printInt 15) (wit []) = .next t := ⟨⟨_, rfl⟩, ⟨_, rfl⟩, ⟨_, rfl⟩⟩

theorem witness_InstructionsKeepOtherRegisters :
    (∃ t, exec (.addInt 15 0 2) (wit []) = .next t) ∧ (Instr.addInt 15 0 2).destination ≠ some (BitVec.ofNat 8 0) ∧
      (Instr.addInt 0x10 0 2).destination ≠ some (BitVec.ofNat 8 15) := ⟨⟨_, rfl⟩, by decide, by decide⟩

theorem witness_InstructionsKeepMemory :
    ((∀ r, Instr.loadIntMem 0 1 1 ≠ .heap r) ∧ ∃ t, exec (.loadIntMem 0 1 1) heapWit = .next t) ∧
      (heapWit.ReadsInt 0 7 ∧ ∃ t, exec (.heap 0) heapWit = .next t) ∧
      ((23 : Word).toNat < heapWit.cursor.toNat ∧ heapWit.cursor.toNat + (7 : Word).toNat ≤ (31 : Word).toNat) :=
  ⟨⟨nofun, _, rfl⟩, ⟨.inl ⟨by decide, rfl⟩, State.complete_next _ _⟩, by decide⟩

theorem witness_HeapIsAppendOnly :
    (∃ t, step heapWit = .next t) ∧ heapWit.memRead 13 = .ok 0x01 ∧ heapWit.memRead 0 = .ok 0x00 :=
  ⟨⟨_, rfl⟩, rfl, rfl⟩

theorem witness_OutputGrowsOnlyByPrinting :
    (∃ t, exec .nop (wit []) = .next t) ∧ (∀ r, Instr.nop ≠ .printInt r) ∧ ∀ r, Instr.nop ≠ .printStr r :=
  ⟨⟨_, rfl⟩, nofun, nofun⟩

theorem witness_PcMovesOnlyByJumps :
    (wit []).status = .running ∧ (∃ t, exec (.loadInt8 0x0F 1) (wit []) = .next t ∧ t.hasFaulted = false) ∧
      (Instr.loadInt8 0x0F 1).destination ≠ some pcIndex ∧ (Instr.loadInt8 0x0F 1).isJump = false :=
  ⟨by decide, ⟨_, rfl, rfl⟩, by decide, by decide⟩

theorem witness_FaultsArePrecise :
    (∃ t f, step (wit []) = .next t ∧ t.status = .faulted f) ∧
      ∃ t f, step (wit [0x12, 0x00, 0x00, 0x01]) = .next t ∧ t.status = .faulted f :=
  ⟨⟨_, _, rfl, rfl⟩, ⟨_, _, rfl, rfl⟩⟩

theorem witness_FaultKindsMatchTheTable :
    (wit []).status = .running ∧ (wit []).image ≠ none ∧
      (∃ t f, exec (.divInt 0 0 1) (wit []) = .next t ∧ t.status = .faulted f) ∧
      (∃ t f, exec (.loadIntMem 0 0 0) (wit []) = .next t ∧ t.status = .faulted f) ∧
      ∃ t f, exec .storeInt (wit []) = .next t ∧ t.status = .faulted f :=
  ⟨by decide, by decide, ⟨_, _, rfl, rfl⟩, ⟨_, _, rfl, rfl⟩, ⟨_, _, rfl, rfl⟩⟩

theorem witness_HaltOnlyByStop : ∃ t, step (wit [0x24]) = .next t ∧ t.status = .halted := ⟨_, rfl, rfl⟩

theorem witness_TypedReadsFollowTheTag :
    ((0 : Byte).toNat < 16 ∧ (wit []).regs[0] = .int 7) ∧ ((15 : Byte).toNat < 16 ∧ (wit []).regs[15] = .int (-1)) ∧
      (wit []).regs[3] = .bytes [0x48] ∧ (∀ v, (wit []).regs[4] ≠ .int v) ∧ (∀ v, (wit []).regs[3] ≠ .int v) ∧
      (∀ bs, (wit []).regs[0] ≠ .bytes bs) ∧ 16 < (0x11 : Byte).toNat ∧ 16 < (0xFF : Byte).toNat :=
  ⟨⟨by decide, rfl⟩, ⟨by decide, rfl⟩, rfl, nofun, nofun, nofun, by decide, by decide⟩

theorem witness_TypedWritesReplaceTagAndPayload :
    (0 : Byte).toNat < 16 ∧ (15 : Byte).toNat < 16 ∧ pcIndex = 0x10 ∧ 16 < (0x11 : Byte).toNat := by decide

theorem witness_MemReadFindsTheOwner :
    ({ wit [] with image := none } : State).image = none ∧ heapWit.image = some [0x00, 0x24, 0x02, 0x03] ∧
      (3 : Word).toNat < 4 ∧ heapWit.segments = [] ++ ⟨4, 10, [⟨4, 0xAB⟩, ⟨13, 0x01⟩]⟩ :: heapWit.segments.tail ∧
      Segment.wf ⟨4, 10, [⟨4, 0xAB⟩, ⟨13, 0x01⟩]⟩ = true ∧ ((4, 0xAB) : Host.Cell) ∈ ([⟨4, 0xAB⟩, ⟨13, 0x01⟩] : Memory) ∧
      (heapWit.segments.take 2).all (fun g => !g.contains 23) = true ∧
      heapWit.segments.all (fun g => !g.contains 24) = true := by decide

theorem witness_MemWriteRoundTrips :
    ({ wit [] with image := none } : State).image = none ∧ heapWit.wf = true ∧
      heapWit.image = some [0x00, 0x24, 0x02, 0x03] ∧ (3 : Word).toNat < 4 ∧
      heapWit.segments.all (fun g => !g.contains 24) = true ∧ (∃ g ∈ heapWit.segments, g.contains 4 = true) ∧
      (∃ g ∈ heapWit.segments, g.contains 23 = true) ∧ 0 < heapWit.segments.length ∧
      (heapWit.segments.drop 1).head?.map (·.contains 4) = some false ∧ 13 ≠ (4 : Word).toNat := by decide

theorem witness_AllocateAppendsOrExhausts :
    ((heapWit.segments.map (·.size.toNat)).sum + (4 : Word).toNat ≤ (24 : Word).toNat ∧
      heapWit.cursor.toNat + (4 : Word).toNat ≤ 2 ^ 64 - 1) ∧
      (24 : Word).toNat < (heapWit.segments.map (·.size.toNat)).sum + (5 : Word).toNat ∧
      2 ^ 64 - 1 < heapWit.cursor.toNat + (0xFFFFFFFFFFFFFFE8 : Word).toNat := by decide

theorem witness_FreshHeapReadsZero :
    heapWit.wf = true ∧ heapWit.image = some [0x00, 0x24, 0x02, 0x03] ∧
      (∃ t, heapWit.allocateWith 24 4 = .ok t) ∧ heapWit.cursor.toNat ≤ (24 : Word).toNat ∧
      (27 : Word).toNat < heapWit.cursor.toNat + (4 : Word).toNat ∧ [(0x00 : Byte), 0x24, 0x02, 0x03].length ≤ 24 :=
  ⟨heapWit_wf, rfl, ⟨_, rfl⟩, by decide, by decide, by decide⟩

theorem wit_reads (img : List Byte) : (wit img).ReadsInt 0 7 ∧ (wit img).ReadsInt 1 0 ∧ (wit img).ReadsInt 2 9 ∧
    (wit img).ReadsInt 15 0xFFFFFFFFFFFFFFFF ∧ (wit img).ReadsInt 0x10 0 :=
  ⟨.inl ⟨by decide, rfl⟩, .inl ⟨by decide, rfl⟩, .inl ⟨by decide, rfl⟩, .inl ⟨by decide, rfl⟩, .inr ⟨rfl, rfl⟩⟩

theorem witness_ImmediateLoadsZeroExtend :
    (0 : Byte).toNat < 16 ∧ (15 : Byte).toNat < 16 ∧ 16 ≤ (0x11 : Byte).toNat ∧ (0x11 : Byte) ≠ pcIndex ∧
      16 ≤ (0xFF : Byte).toNat ∧ (0xFF : Byte) ≠ pcIndex := by decide

theorem witness_LoadIntMemReadsBigEndian :
    heapWit.ReadsInt 1 0 ∧ (∀ (k : Nat) (h : k < [(0x00 : Byte), 0x24, 0x02, 0x03, 0xAB, 0, 0, 0].length),
      heapWit.memRead (0 + BitVec.ofNat 64 k) = .ok [(0x00 : Byte), 0x24, 0x02, 0x03, 0xAB, 0, 0, 0][k]) ∧
      (heapWit.ReadsInt 0x10 0 ∧ ∀ (k : Nat) (h : k < [(0x00 : Byte)].length),
        heapWit.memRead (0 + BitVec.ofNat 64 k) = .ok [(0x00 : Byte)][k]) :=
  ⟨.inl ⟨by decide, rfl⟩,
    fun k h => by
      have h : k < 8 := h
      interval_cases k <;> rfl,
    .inr ⟨rfl, rfl⟩,
    fun k h => by
      have h : k < 1 := h
      interval_cases k
      rfl⟩

theorem witness_LoadIntMemFaults :
    (0 : Byte).toNat = 0 ∧ 8 < (9 : Byte).toNat ∧
      ({ heapWit with pc := 23 }).ReadsInt 0x10 23 ∧ (∀ j, j < 1 → ∃ b, heapWit.memRead (23 + BitVec.ofNat 64 j) = .ok b) ∧
      heapWit.memRead (23 + BitVec.ofNat 64 1) = .error (.invalidHeapAccess 24) ∧
      (wit []).ReadsInt 15 0xFFFFFFFFFFFFFFFF ∧
      (wit []).memRead (0xFFFFFFFFFFFFFFFF + BitVec.ofNat 64 0) = .error (.invalidHeapAccess 0xFFFFFFFFFFFFFFFF) :=
  ⟨by decide, by decide, .inr ⟨rfl, rfl⟩,
    fun j h => by
      interval_cases j
      exact ⟨_, rfl⟩,
    rfl, (wit_reads []).2.2.2.1, rfl⟩

theorem witness_IncDecWrap : (wit []).ReadsInt 15 0xFFFFFFFFFFFFFFFF ∧ (wit []).ReadsInt 1 0 ∧ (wit []).ReadsInt 0x10 0 :=
  ⟨(wit_reads []).2.2.2.1, (wit_reads []).2.1, (wit_reads []).2.2.2.2⟩

theorem witness_AddSubMulWrap : (wit []).ReadsInt 15 0xFFFFFFFFFFFFFFFF ∧ (wit []).ReadsInt 0 7 :=
  ⟨(wit_reads []).2.2.2.1, (wit_reads []).1⟩

theorem witness_DivModOrDivideByZero :
    ((wit []).ReadsInt 0 7 ∧ (wit []).ReadsInt 2 9 ∧ (9 : Word) ≠ 0) ∧ (wit []).ReadsInt 0 7 ∧ (wit []).ReadsInt 1 0 :=
  ⟨⟨(wit_reads []).1, (wit_reads []).2.2.1, by decide⟩, (wit_reads []).1, (wit_reads []).2.1⟩

theorem witness_SourceReadFaultsComeInOrder :
    (wit []).IntReadFaults 4 (.typeMismatch 4) ∧ (wit []).IntReadFaults 3 (.typeMismatch 3) ∧
      (wit []).IntReadFaults 0x11 (.invalidRegister 0x11) ∧ (wit []).IntReadFaults 0xFF (.invalidRegister 0xFF) ∧
      (wit []).ReadsInt 0 7 ∧ (wit []).ReadsInt 2 9 ∧ (15 : Byte).toNat ≤ 15 ∧ 1 ≤ (1 : Byte).toNat ∧
      (8 : Byte).toNat ≤ 8 :=
  ⟨.inl ⟨by decide, nofun, rfl⟩, .inl ⟨by decide, nofun, rfl⟩, .inr ⟨by decide, by decide, rfl⟩,
    .inr ⟨by decide, by decide, rfl⟩, (wit_reads []).1, (wit_reads []).2.2.1, by decide, by decide, by decide⟩

theorem witness_PrintAppendsToTheOutput :
    (wit []).ReadsInt 15 0xFFFFFFFFFFFFFFFF ∧ ((3 : Byte).toNat < 16 ∧ (wit []).regs[3] = .bytes [0x48]) ∧
      (∀ bs, (wit []).regs[0] ≠ .bytes bs) ∧ (∀ bs, (wit []).regs[15] ≠ .bytes bs) ∧ (0x10 : Byte) = pcIndex ∧
      16 ≤ (0x11 : Byte).toNat ∧ (0x11 : Byte) ≠ pcIndex :=
  ⟨(wit_reads []).2.2.2.1, ⟨by decide, rfl⟩, nofun, nofun, rfl, by decide, by decide⟩

theorem witness_DecimalIsTheNumeral : decimal 0 = [0x30] ∧ (10 : Word) ≠ 0 ∧ decimal 10 = [0x31, 0x30] := by decide

theorem witness_StringLoadsWriteBytes :
    (15 : Byte).toNat < 16 ∧ (0x10 : Byte) = pcIndex ∧ 16 ≤ (0x11 : Byte).toNat ∧ (0x11 : Byte) ≠ pcIndex := by decide

theorem witness_JumpsSetThePc : (wit []).ReadsInt 15 0xFFFFFFFFFFFFFFFF ∧ (wit []).ReadsInt 0x10 0 :=
  ⟨(wit_reads []).2.2.2.1, (wit_reads []).2.2.2.2⟩

theorem witness_ConditionalJumpsFollowThePredicate :
    (wit []).ReadsInt 0 7 ∧ (wit []).ReadsInt 2 9 ∧ predicate 0 7 9 = .ok false ∧ predicate 1 7 9 = .ok true ∧
      (∃ taken, predicate 10 7 9 = .ok taken) ∧ (∃ taken, predicate 13 7 9 = .ok taken) ∧ predicate 15 7 9 = .ok true :=
  ⟨(wit_reads []).1, (wit_reads []).2.2.1, rfl, rfl, ⟨_, rfl⟩, ⟨_, rfl⟩, rfl⟩

theorem witness_ConditionalRegisterJump :
    (wit []).ReadsInt 0 7 ∧ (wit []).ReadsInt 2 9 ∧ (wit []).ReadsInt 15 0xFFFFFFFFFFFFFFFF ∧
      predicate 5 7 9 = .ok true ∧ predicate 4 7 9 = .ok false :=
  ⟨(wit_reads []).1, (wit_reads []).2.2.1, (wit_reads []).2.2.2.1, rfl, rfl⟩

theorem witness_ComparisonCodeFaults :
    15 < (16 : Byte).toNat ∧ 15 < (0xFF : Byte).toNat ∧ (wit []).ReadsInt 0 7 ∧ (wit []).ReadsInt 1 0 ∧
      (wit []).ReadsInt 2 9 := ⟨by decide, by decide, (wit_reads []).1, (wit_reads []).2.1, (wit_reads []).2.2.1⟩

theorem witness_PredicateTable : (0 : Word) = 0 ∧ (9 : Word) ≠ 0 ∧ 15 < (16 : Byte).toNat := by decide

theorem witness_HeapAppendsASegment :
    ((wit []).ReadsInt 1 0 ∧ heapTotal (wit []).segments + (0 : Word).toNat ≤ Config.heapCapacity.toNat ∧
      (wit []).cursor.toNat + (0 : Word).toNat ≤ 2 ^ 64 - 1) ∧
      heapWit.ReadsInt 15 0xFFFFFFFFFFFFFFFF ∧
      2 ^ 64 - 1 < heapWit.cursor.toNat + (0xFFFFFFFFFFFFFFFF : Word).toNat :=
  ⟨⟨(wit_reads []).2.1, Nat.zero_le _, by decide⟩, .inl ⟨by decide, rfl⟩, by decide⟩

theorem witness_InfoWritesTheEntry : (wit [0x24]).image = some [0x24] ∧ 3 < (4 : Byte).toNat ∧ 3 < (0xFF : Byte).toNat := by
  decide

theorem witness_MovCopiesTheTaggedValue :
    (0 : Byte).toNat < 16 ∧ (15 : Byte).toNat < 16 ∧ (wit []).regs[4] = .unwritten ∧ (0x10 : Byte) = pcIndex ∧
      16 ≤ (0x11 : Byte).toNat ∧ (0x11 : Byte) ≠ pcIndex := by decide

theorem witness_RandomWritesAFreshDraw :
    (15 : Byte).toNat < 16 ∧ (0x10 : Byte) = pcIndex ∧ 16 ≤ (0x11 : Byte).toNat ∧ (0x11 : Byte) ≠ pcIndex := by decide

theorem witness_HostOperationsAdmitOrRefuse :
    [(0x24 : Byte)].length < 2 ^ 64 ∧ 2 ^ 64 ≤ (List.replicate (2 ^ 64) (0 : Byte)).length ∧
      (wit []).stepped = false ∧ ({ wit [] with stepped := true, status := .halted } : State).status ≠ .running ∧
      (({ wit [] with stepped := true } : State).stepped = true ∧
        ({ wit [] with stepped := true } : State).status = .running) :=
  ⟨by decide, by rw [List.length_replicate], by decide, by decide, by decide⟩

end Sys2Proof.Tests
end

section
/-! PROOFS of the statements about the state (10_state.md): first the rules about the state's operations, then what a
step can do, then each statement from them. -/

namespace Sys2Proof.Machine

/-! ## The typed accessors, one equation per form of the register byte (R26 to R30) -/

/-- A byte past the PC sentinel is not the sentinel. -/
theorem ne_pcIndex_of_lt {i : Byte} (h : 16 < i.toNat) : i ≠ pcIndex := by
  rintro rfl
  exact absurd h (by simp [pcIndex_toNat])

section Accessors

variable {s : State} {i : Byte}

theorem State.getInt_reg (h : i.toNat < 16) {v : Word} (hv : s.regs[i.toNat] = .int v) : s.getInt i = .ok v :=
  State.getInt_ok_iff.2 (.inl ⟨h, hv⟩)

theorem State.getInt_reg_mismatch (h : i.toNat < 16) (hv : ∀ v, s.regs[i.toNat] ≠ .int v) :
    s.getInt i = .error (.typeMismatch i) :=
  State.getInt_error_iff.2 (.inl ⟨h, hv, rfl⟩)

theorem State.getInt_pcIndex (s : State) : s.getInt pcIndex = .ok s.pc :=
  State.getInt_ok_iff.2 (.inr ⟨rfl, rfl⟩)

theorem State.getInt_invalid (h : 16 ≤ i.toNat) (hp : i ≠ pcIndex) : s.getInt i = .error (.invalidRegister i) :=
  State.getInt_error_iff.2 (.inr ⟨h, hp, rfl⟩)

theorem State.putInt_reg (h : i.toNat < 16) (v : Word) : s.putInt i v = .ok (s.setReg i.toNat (.int v) h) :=
  dif_pos h

theorem State.putInt_pcIndex (s : State) (v : Word) : s.putInt pcIndex v = .ok (s.setPc v) := rfl

theorem State.putInt_invalid (h : 16 ≤ i.toNat) (hp : i ≠ pcIndex) (v : Word) :
    s.putInt i v = .error (.invalidRegister i) :=
  (dif_neg (Nat.not_lt.2 h)).trans (if_neg hp)

theorem State.getStr_reg (h : i.toNat < 16) {bs : List Byte} (hv : s.regs[i.toNat] = .bytes bs) :
    s.getStr i = .ok bs := by
  simp [State.getStr, h, hv]

theorem State.getStr_reg_mismatch (h : i.toNat < 16) (hv : ∀ bs, s.regs[i.toNat] ≠ .bytes bs) :
    s.getStr i = .error (.typeMismatch i) := by
  rcases s.getStr_cases i with ⟨_, bs, hbs, -⟩ | ⟨-, -, he⟩ | ⟨-, he⟩ | ⟨h16, -, -⟩
  · exact absurd hbs (hv bs)
  · exact he
  · exact he
  · exact absurd h (Nat.not_lt.2 h16)

theorem State.getStr_pcIndex (s : State) : s.getStr pcIndex = .error (.typeMismatch pcIndex) := rfl

theorem State.getStr_invalid (h : 16 ≤ i.toNat) (hp : i ≠ pcIndex) : s.getStr i = .error (.invalidRegister i) :=
  (dif_neg (Nat.not_lt.2 h)).trans (if_neg hp)

theorem State.putStr_reg (h : i.toNat < 16) (bs : List Byte) :
    s.putStr i bs = .ok (s.setReg i.toNat (.bytes bs) h) :=
  dif_pos h

theorem State.putStr_pcIndex (s : State) (bs : List Byte) :
    s.putStr pcIndex bs = .error (.typeMismatch pcIndex) := rfl

theorem State.putStr_invalid (h : 16 ≤ i.toNat) (hp : i ≠ pcIndex) (bs : List Byte) :
    s.putStr i bs = .error (.invalidRegister i) :=
  (dif_neg (Nat.not_lt.2 h)).trans (if_neg hp)

theorem State.getAny_reg (h : i.toNat < 16) : s.getAny i = .ok s.regs[i.toNat] := dif_pos h

theorem State.getAny_pcIndex (s : State) : s.getAny pcIndex = .error (.typeMismatch pcIndex) := rfl

theorem State.getAny_invalid (h : 16 ≤ i.toNat) (hp : i ≠ pcIndex) : s.getAny i = .error (.invalidRegister i) :=
  (dif_neg (Nat.not_lt.2 h)).trans (if_neg hp)

theorem State.putAny_reg (h : i.toNat < 16) (v : Value) : s.putAny i v = .ok (s.setReg i.toNat v h) := dif_pos h

theorem State.putAny_pcIndex (s : State) (v : Value) : s.putAny pcIndex v = .error (.typeMismatch pcIndex) := rfl

theorem State.putAny_invalid (h : 16 ≤ i.toNat) (hp : i ≠ pcIndex) (v : Value) :
    s.putAny i v = .error (.invalidRegister i) :=
  (dif_neg (Nat.not_lt.2 h)).trans (if_neg hp)

end Accessors

/-- A handler that ends in `putInt` ends writing that integer (R27). -/
theorem endsWritingInt_putInt (s : State) (d : Byte) (v : Word) :
    EndsWritingInt (s.complete (s.putInt d v)) s d v := by
  refine ⟨fun h => ?_, fun hp => ?_, fun h hp => ?_⟩
  · rw [State.putInt_reg h]; rfl
  · rw [hp, State.putInt_pcIndex]; rfl
  · rw [State.putInt_invalid h hp]; rfl

/-- A handler that ends in `putAny` ends writing that tagged value (R30). -/
theorem endsWritingValue_putAny (s : State) (d : Byte) (v : Value) :
    EndsWritingValue (s.complete (s.putAny d v)) s d v := by
  refine ⟨fun h => ?_, fun hp => ?_, fun h hp => ?_⟩
  · rw [State.putAny_reg h]; rfl
  · rw [hp, State.putAny_pcIndex]; rfl
  · rw [State.putAny_invalid h hp]; rfl

/-! ## Segments that follow one another (R34, R35) -/

theorem Segment.contains_iff {g : Segment} {a : Word} :
    g.contains a = true ↔ g.start.toNat ≤ a.toNat ∧ a.toNat < g.start.toNat + g.size.toNat := by
  simp [Segment.contains]

@[simp] theorem heapTotal_nil : heapTotal [] = 0 := rfl

theorem heapTotal_append_one (gs : List Segment) (g : Segment) :
    heapTotal (gs ++ [g]) = heapTotal gs + g.size.toNat := by
  simp [heapTotal]

theorem contiguous_cons_iff {lo hi : Nat} {g : Segment} {gs : List Segment} :
    contiguous lo (g :: gs) hi = true ↔ g.start.toNat = lo ∧ contiguous (lo + g.size.toNat) gs hi = true := by
  simp [contiguous]

/-- A segment that starts where the others end extends them by its size. -/
theorem contiguous_append_one {lo hi : Nat} {gs : List Segment} {g : Segment} (h : contiguous lo gs hi = true)
    (hg : g.start.toNat = hi) : contiguous lo (gs ++ [g]) (hi + g.size.toNat) = true := by
  induction gs generalizing lo with
  | nil =>
    have hlo : lo = hi := by simpa [contiguous] using h
    simp [contiguous, hg, hlo]
  | cons k ks ih =>
    obtain ⟨hk, hks⟩ := contiguous_cons_iff.1 h
    exact contiguous_cons_iff.2 ⟨hk, ih hks⟩

/-- Contiguous segments lie between the two ends. -/
theorem contiguous_bounds {lo hi : Nat} {gs : List Segment} (h : contiguous lo gs hi = true) :
    lo ≤ hi ∧ ∀ g ∈ gs, lo ≤ g.start.toNat ∧ g.start.toNat + g.size.toNat ≤ hi := by
  induction gs generalizing lo with
  | nil =>
    have hlo : lo = hi := by simpa [contiguous] using h
    exact ⟨hlo.le, by simp⟩
  | cons k ks ih =>
    obtain ⟨hk, hks⟩ := contiguous_cons_iff.1 h
    obtain ⟨hle, hin⟩ := ih hks
    refine ⟨by omega, fun g hg => ?_⟩
    rcases List.mem_cons.1 hg with rfl | hg
    · omega
    · have := hin g hg
      omega

/-- Of two contiguous segments the earlier ends before the later starts. -/
theorem contiguous_pairwise {lo hi : Nat} {gs : List Segment} (h : contiguous lo gs hi = true) :
    gs.Pairwise fun g k => g.start.toNat + g.size.toNat ≤ k.start.toNat := by
  induction gs generalizing lo with
  | nil => exact .nil
  | cons k ks ih =>
    obtain ⟨hk, hks⟩ := contiguous_cons_iff.1 h
    refine .cons (fun g hg => ?_) (ih hks)
    have := ((contiguous_bounds hks).2 g hg).1
    omega

/-- Contiguous segments share no address. -/
theorem contiguous_owner_unique {lo hi : Nat} {gs : List Segment} (h : contiguous lo gs hi = true) {a : Word}
    {j k : Nat} (hj : j < gs.length) (hk : k < gs.length) (hja : gs[j].contains a = true)
    (hka : gs[k].contains a = true) : j = k := by
  have hp := List.pairwise_iff_getElem.1 (contiguous_pairwise h)
  obtain ⟨hj1, hj2⟩ := Segment.contains_iff.1 hja
  obtain ⟨hk1, hk2⟩ := Segment.contains_iff.1 hka
  rcases Nat.lt_trichotomy j k with hlt | heq | hlt
  · have := hp j k hj hk hlt
    omega
  · exact heq
  · have := hp k j hk hj hlt
    omega

/-! ## The invariant -/

theorem State.wf_iff {s : State} :
    s.wf = true ↔ s.imageLength < 2 ^ 64 ∧ heapTotal s.segments ≤ s.cursor.toNat ∧
      contiguous s.heapBase s.segments s.cursor.toNat = true ∧ s.segments.all Segment.wf = true := by
  simp only [State.wf, Bool.and_eq_true, decide_eq_true_eq, and_assoc]

/-- Under the invariant every address a segment owns is below the cursor (R35). -/
theorem State.wf_owner_below_cursor {s : State} (h : s.wf = true) {g : Segment} (hg : g ∈ s.segments) {a : Word}
    (ha : g.contains a = true) : a.toNat < s.cursor.toNat := by
  obtain ⟨-, -, hc, -⟩ := State.wf_iff.1 h
  have := ((contiguous_bounds hc).2 g hg).2
  have := (Segment.contains_iff.1 ha).2
  omega

/-- The empty heap meets the invariant under any cursor (R35, R46). -/
theorem State.wf_of_no_segments {s : State} (hi : s.imageLength < 2 ^ 64) (hs : s.segments = []) : s.wf = true :=
  State.wf_iff.2 ⟨hi, by simp [hs], by simp [State.heapBase, hs, contiguous], by simp [hs]⟩

/-! ## What a step can do -/

/-- The inversion lemma of `step`: the opcode fetch fails; or the fetch fails or finds no handler after it; or a
handler runs (R102). -/
theorem step_effect {s t : State} (h : step s = .next t) : s.status = .running ∧
    ((∃ c, s.fetch8 = .error c ∧ t = s.raise c) ∨
      (∃ op u c, s.fetch8 = .ok (op, u) ∧ t = ((s.setPc (s.pc + 1)).countOpcode op).raise c) ∨
      ∃ op u i rest v, s.fetch8 = .ok (op, u) ∧ decode s.stream = .instr i rest ∧
        Effect i ((s.countOpcode op).setPc v) t) := by
  obtain ⟨hrun, ⟨i, u, hf, hx⟩ | hf⟩ := step_cases h
  · obtain ⟨op, w, rest, h8, hd, rfl⟩ := State.fetch_run hf
    exact ⟨hrun, .inr (.inr ⟨op, w, i, rest, _, h8, hd, exec_effect hx⟩)⟩
  · rcases State.fetch_done hf with h8 | ⟨op, u, c, h8, ht⟩
    · exact ⟨hrun, .inl h8⟩
    · exact ⟨hrun, .inr (.inl ⟨op, u, c, h8, ht⟩)⟩

/-- The memory of t is that of s, or that of s after one allocation that HEAP_CAPACITY and the address space leave
room for (R65, R66). -/
def SameOrAllocated (s t : State) : Prop :=
  t.image = s.image ∧
    ((t.segments = s.segments ∧ t.cursor = s.cursor) ∨
      ∃ n : Word, heapTotal s.segments + n.toNat ≤ Config.heapCapacity.toNat ∧
        s.cursor.toNat + n.toNat ≤ 2 ^ 64 - 1 ∧ t.segments = s.segments ++ [⟨s.cursor, n, []⟩] ∧
        t.cursor = s.cursor + n)

theorem SameOrAllocated.same {s t : State} (hi : t.image = s.image) (hs : t.segments = s.segments)
    (hc : t.cursor = s.cursor) : SameOrAllocated s t :=
  ⟨hi, .inl ⟨hs, hc⟩⟩

theorem Effect.sameOrAllocated {i : Instr} {s t : State} (h : Effect i s t) : SameOrAllocated s t := by
  cases h with
  | heap r n hi hr hc hb => exact ⟨rfl, .inr ⟨n, hc, hb, rfl, rfl⟩⟩
  | none | fault | reg | pc | emit | halt | drawReg | drawPc | drawFault => exact .same rfl rfl rfl

theorem step_sameOrAllocated {s t : State} (h : step s = .next t) : SameOrAllocated s t := by
  obtain ⟨-, ⟨c, -, rfl⟩ | ⟨op, u, c, -, rfl⟩ | ⟨op, u, i, rest, v, -, -, he⟩⟩ := step_effect h
  · exact .same rfl rfl rfl
  · exact .same rfl rfl rfl
  · exact he.sameOrAllocated

/-- An allocation moves the allocated bytes and the cursor alike, so where the heap began stays (R35). -/
theorem SameOrAllocated.heapBase_eq {s t : State} (h : SameOrAllocated s t)
    (hle : heapTotal s.segments ≤ s.cursor.toNat) :
    heapTotal t.segments ≤ t.cursor.toNat ∧ t.heapBase = s.heapBase := by
  obtain ⟨-, ⟨hs, hc⟩ | ⟨n, -, hb, hs, hc⟩⟩ := h
  · exact ⟨by rwa [hs, hc], by rw [State.heapBase, State.heapBase, hs, hc]⟩
  · have hcur : t.cursor.toNat = s.cursor.toNat + n.toNat := by
      rw [hc, BitVec.toNat_add_of_lt (by omega)]
    have htot : heapTotal t.segments = heapTotal s.segments + n.toNat := by rw [hs, heapTotal_append_one]
    exact ⟨by omega, by simp only [State.heapBase]; omega⟩

theorem SameOrAllocated.withinCapacity {s t : State} (h : SameOrAllocated s t) (hs : s.withinCapacity) :
    t.withinCapacity := by
  obtain ⟨-, ⟨he, -⟩ | ⟨n, hcap, -, he, -⟩⟩ := h
  · rwa [State.withinCapacity, he]
  · rwa [State.withinCapacity, he, heapTotal_append_one]

theorem SameOrAllocated.keeps_wf {s t : State} (h : SameOrAllocated s t) (hs : s.wf = true) : t.wf = true := by
  obtain ⟨himg, htot, hcon, hall⟩ := State.wf_iff.1 hs
  obtain ⟨htot', hbase⟩ := h.heapBase_eq htot
  obtain ⟨hi, ⟨hg, hc⟩ | ⟨n, -, hb, hg, hc⟩⟩ := h
  all_goals refine State.wf_iff.2 ⟨by rwa [State.imageLength, hi], htot', ?_, ?_⟩
  · rwa [hbase, hg, hc]
  · rwa [hg]
  · rw [hbase, hg, hc, BitVec.toNat_add_of_lt (by omega)]
    exact contiguous_append_one hcon rfl
  · simp [hg, hall, Segment.fresh_wf]

/-! ## Frames of all instructions, by cases on what an instruction can do -/

section Frames

variable {i : Instr} {s t : State}

theorem Effect.keeps_engine (h : Effect i s t) :
    t.tick = s.tick ∧ t.curOp = s.curOp ∧ t.image = s.image ∧ t.debug = s.debug ∧ t.stepped = s.stepped := by
  cases h <;> exact ⟨rfl, rfl, rfl, rfl, rfl⟩

/-- A write to a register named by a byte leaves every register the byte does not name. -/
theorem regs_set_toNat_of_ne (regs : Vector Value 16) {d : Byte} (v : Value) (hd : d.toNat < 16) {r : Nat}
    (hr : r < 16) (hne : d ≠ BitVec.ofNat 8 r) : (regs.set d.toNat v hd)[r] = regs[r] := by
  refine Vector.getElem_set_ne hd hr fun he => hne ?_
  rw [← he, BitVec.ofNat_toNat, BitVec.setWidth_eq]

theorem Effect.keeps_other_register (h : Effect i s t) {r : Nat} (hr : r < 16)
    (hne : i.destination ≠ some (BitVec.ofNat 8 r)) : t.regs[r] = s.regs[r] := by
  cases h with
  | reg d v hd hi => exact regs_set_toNat_of_ne s.regs v hd hr fun he => hne (hi.trans (congrArg some he))
  | drawReg d v hd hi =>
    subst hi
    exact regs_set_toNat_of_ne s.regs v hd hr fun he => hne (congrArg some he)
  | none | fault | pc | emit | heap | halt | drawPc | drawFault => rfl

theorem Effect.out_append (h : Effect i s t) : ∃ bs, t.out = s.out ++ bs := by
  cases h with
  | emit bs => exact ⟨bs, rfl⟩
  | none | fault | reg | pc | heap | halt | drawReg | drawPc | drawFault => exact ⟨[], (List.append_nil _).symm⟩

theorem Effect.keeps_out (h : Effect i s t) (hint : ∀ r, i ≠ .printInt r) (hstr : ∀ r, i ≠ .printStr r) :
    t.out = s.out := by
  cases h with
  | emit bs hi =>
    rcases hi with ⟨r, hi⟩ | ⟨r, hi⟩
    · exact absurd hi (hint r)
    · exact absurd hi (hstr r)
  | none | fault | reg | pc | heap | halt | drawReg | drawPc | drawFault => rfl

theorem Effect.keeps_pc (h : Effect i s t) (hf : t.hasFaulted = false) (hd : i.destination ≠ some pcIndex)
    (hj : i.isJump = false) : t.pc = s.pc := by
  cases h with
  | fault | drawFault => cases hf
  | pc v hi =>
    rcases hi with hi | hi
    · exact absurd hi hd
    · exact absurd hi (by simp [hj])
  | drawPc v hi => exact absurd (congrArg Instr.destination hi) hd
  | none | reg | emit | heap | halt | drawReg => rfl

theorem Effect.eq_stop_of_halted (h : Effect i s t) (hs : s.status = .running) (ht : t.status = .halted) :
    i = .stop := by
  cases h with
  | halt hi => exact hi
  | fault | drawFault => cases ht
  | none | reg | pc | emit | heap | drawReg | drawPc => exact absurd (hs.symm.trans ht) (by simp)

end Frames

/-! ## A source that cannot be read -/

section SourceFaults

variable {s : State} {r : Byte} {e : FaultCause}

theorem arith1_error (hr : s.getInt r = .error e) (f : Word → Word) : s.arith1 r f = .error e := by
  simp [State.arith1, hr]

theorem arith2_error_first (hr : s.getInt r = .error e) (d b : Byte) (f : Word → Word → Except FaultCause Word) :
    s.arith2 d r b f = .error e := by
  simp [State.arith2, hr]

theorem arith2_error_second {a : Byte} {x : Word} (ha : s.getInt a = .ok x) (hr : s.getInt r = .error e) (d : Byte)
    (f : Word → Word → Except FaultCause Word) : s.arith2 d a r f = .error e := by
  simp [State.arith2, ha, hr]

theorem checkCmp_ok {c : Byte} (hc : c.toNat ≤ 15) : checkCmp c = .ok () := if_neg (Nat.not_lt.2 hc)

theorem checkSize_ok {n : Byte} (h1 : 1 ≤ n.toNat) (h8 : n.toNat ≤ 8) : checkSize n = .ok n.toNat := by
  rcases checkSize_cases n with ⟨-, -, hn⟩ | ⟨hbad, -⟩
  · exact hn
  · omega

theorem condJump_error_first {c : Byte} (hc : c.toNat ≤ 15) (hr : s.getInt r = .error e) (b : Byte)
    (target : Except FaultCause Word) : s.condJump c r b target = .error e := by
  simp [State.condJump, checkCmp_ok hc, hr]

theorem condJump_error_second {c a : Byte} {x : Word} (hc : c.toNat ≤ 15) (ha : s.getInt a = .ok x)
    (hr : s.getInt r = .error e) (target : Except FaultCause Word) : s.condJump c a r target = .error e := by
  simp [State.condJump, checkCmp_ok hc, ha, hr]

theorem condJump_error_target {c a b : Byte} {x y : Word} (hc : c.toNat ≤ 15) (ha : s.getInt a = .ok x)
    (hb : s.getInt b = .ok y) : s.condJump c a b (.error e) = .error e := by
  simp [State.condJump, checkCmp_ok hc, ha, hb]

end SourceFaults

/-- The handlers of the five two-source instructions differ in their operation only (R134 to R138). -/
theorem exec_arith2 {i : Byte → Byte → Byte → Instr}
    (hi : i ∈ [Instr.addInt, .subInt, .mulInt, .divInt, .modInt]) (s : State) :
    ∃ f, ∀ d a b, exec (i d a b) s = s.complete (s.arith2 d a b f) := by
  simp only [List.mem_cons, List.not_mem_nil, or_false] at hi
  rcases hi with rfl | rfl | rfl | rfl | rfl <;> exact ⟨_, fun _ _ _ => rfl⟩

/-- The handlers of the five conditional jumps differ in their target only (R177 to R181). -/
theorem exec_condJump {i : Instr} {c a b t : Byte} {v8 : BitVec 8} {v16 : BitVec 16} {v32 : BitVec 32}
    {v64 : BitVec 64}
    (hi : i ∈ [Instr.jmpLe8 c a b v8, .jmpLe16 c a b v16, .jmpLe32 c a b v32, .jmpLe64 c a b v64, .jmpLeInt c a b t])
    (s : State) : ∃ target, exec i s = s.complete (s.condJump c a b target) := by
  simp only [List.mem_cons, List.not_mem_nil, or_false] at hi
  rcases hi with rfl | rfl | rfl | rfl | rfl <;> exact ⟨_, rfl⟩

theorem exec_jmpLeInt (c a b t : Byte) (s : State) :
    exec (.jmpLeInt c a b t) s = s.complete (s.condJump c a b (s.getInt t)) := rfl

/-! ## The host's operations -/

theorem hostLoad_of_lt {img : List Byte} (hl : img.length < 2 ^ 64) (s : State) :
    hostLoad img s = if s.duringRun then .refused .hostWriteDuringRun else .next (s.load img) :=
  if_pos hl

theorem State.duringRun_eq_false {s : State} (h : s.stepped = false ∨ s.status ≠ .running) : s.duringRun = false := by
  rw [Bool.eq_false_iff, Ne, State.duringRun_iff]
  rintro ⟨hrun, hst⟩
  rcases h with h | h
  · exact absurd (h.symm.trans hst) (by decide)
  · exact h hrun

/-! ## The obligations -/

/-- Settles O16: a step keeps the memory or allocates once at the cursor, and both keep the invariant. -/
theorem stepKeepsWellFormed : Obligations.StepKeepsWellFormed :=
  fun _ _ hwf h => (step_sameOrAllocated h).keeps_wf hwf

/-- Settles O14, by the three ways a step can go; a handler writes neither register. -/
theorem stepCountsEachFetchedOpcode : Obligations.StepCountsEachFetchedOpcode := by
  intro s t h
  obtain ⟨-, ⟨c, h8, rfl⟩ | ⟨op, u, c, h8, rfl⟩ | ⟨op, u, i, rest, v, h8, -, he⟩⟩ := step_effect h
  · exact ⟨fun _ _ => ⟨rfl, rfl⟩, fun op u h' => nomatch h8.symm.trans h'⟩
  · refine ⟨fun c h' => (nomatch h8.symm.trans h'), fun op' u' h' => ?_⟩
    obtain rfl : op = op' := congrArg Prod.fst (Except.ok.inj (h8.symm.trans h'))
    exact ⟨rfl, rfl⟩
  · refine ⟨fun c h' => (nomatch h8.symm.trans h'), fun op' u' h' => ?_⟩
    obtain rfl : op = op' := congrArg Prod.fst (Except.ok.inj (h8.symm.trans h'))
    obtain ⟨htick, hop, -⟩ := he.keeps_engine
    exact ⟨htick, hop⟩

/-- Settles O17. -/
theorem stepKeepsHeapBaseAndCapacity : Obligations.StepKeepsHeapBaseAndCapacity :=
  fun _ _ hle h => ⟨((step_sameOrAllocated h).heapBase_eq hle).2, (step_sameOrAllocated h).withinCapacity⟩

/-- Settles O18: contiguous segments share no address and end at the cursor. -/
theorem segmentsOwnDisjointAddresses : Obligations.SegmentsOwnDisjointAddresses := by
  intro s a hwf
  obtain ⟨-, -, hcon, -⟩ := State.wf_iff.1 hwf
  exact ⟨fun j k hj hk => contiguous_owner_unique hcon hj hk, fun g hg => State.wf_owner_below_cursor hwf hg⟩

/-- Settles O19. -/
theorem instructionsKeepEngineRegisters : Obligations.InstructionsKeepEngineRegisters :=
  fun _ _ _ h => (exec_effect h).keeps_engine

/-- Settles O20. -/
theorem instructionsKeepOtherRegisters : Obligations.InstructionsKeepOtherRegisters :=
  fun _ _ _ h _ hr hne => (exec_effect h).keeps_other_register hr hne

/-- Settles O23. -/
theorem outputGrowsOnlyByPrinting : Obligations.OutputGrowsOnlyByPrinting :=
  fun _ _ _ h => ⟨(exec_effect h).out_append, (exec_effect h).keeps_out⟩

/-- Settles O24. -/
theorem pcMovesOnlyByJumps : Obligations.PcMovesOnlyByJumps :=
  fun _ _ _ _ h hf hd hj => (exec_effect h).keeps_pc hf hd hj

/-- Settles O27: a fetch fault ends Faulted, and only STOP's handler ends Halted. -/
theorem haltOnlyByStop : Obligations.HaltOnlyByStop := by
  intro s t h ht
  obtain ⟨hrun, ⟨c, -, rfl⟩ | ⟨op, u, c, -, rfl⟩ | ⟨op, u, i, rest, v, -, hd, he⟩⟩ := step_effect h
  · cases ht
  · cases ht
  · exact ⟨rest, by rw [hd, he.eq_stop_of_halted hrun ht]⟩

/-- Settles O35: under the invariant no older segment owns an address at or above the cursor, so the fresh one is its
first owner. -/
theorem freshHeapReadsZero : Obligations.FreshHeapReadsZero := by
  intro cap s t img n a hwf himg hal hlo hhi hout
  rcases s.allocateWith_cases cap n with ⟨-, -, he⟩ | ⟨-, he⟩ <;> rw [he] at hal <;> cases hal
  have hold : s.segments.find? (·.contains a) = none :=
    List.find?_eq_none.2 fun g hg hc => absurd (State.wf_owner_below_cursor hwf hg hc) (Nat.not_lt.2 hlo)
  have hnew : Segment.contains ⟨s.cursor, n, []⟩ a = true := Segment.contains_iff.2 ⟨hlo, hhi⟩
  simp [State.memRead, State.resolve, himg, Nat.not_lt.2 hout, List.find?_append, hold, hnew, Memory.read]

/-- Settles O42: the operand order is that of the handlers' reads. -/
theorem sourceReadFaultsComeInOrder : Obligations.SourceReadFaultsComeInOrder := by
  intro s r e hfault
  have hr : s.getInt r = .error e := State.getInt_error_iff.2 hfault
  refine ⟨⟨?_, ?_, ?_, ?_, ?_⟩, fun d n h1 h8 => ?_, ?_, fun c b t v8 v16 v32 v64 hc => ⟨?_, fun a x ha => ⟨?_, ?_⟩⟩⟩
  · simp [exec, execIncInt, arith1_error hr]
  · simp [exec, execDecInt, arith1_error hr]
  · simp [exec, execPrintInt, hr]
  · simp [exec, execJmpInt, hr]
  · simp [exec, execHeap, hr]
  · simp [exec, execLoadIntMem, checkSize_ok h1 h8, hr]
  · intro i hi d b
    obtain ⟨f, hx⟩ := exec_arith2 hi s
    refine ⟨?_, fun a x ha => ?_⟩
    · rw [hx, arith2_error_first hr, State.complete_error]
    · rw [hx, arith2_error_second (State.getInt_ok_iff.2 ha) hr, State.complete_error]
  · intro i hi
    obtain ⟨target, hx⟩ := exec_condJump hi s
    rw [hx, condJump_error_first hc hr, State.complete_error]
  · intro i hi
    obtain ⟨target, hx⟩ := exec_condJump hi s
    rw [hx, condJump_error_second hc (State.getInt_ok_iff.2 ha) hr, State.complete_error]
  · intro y hb
    rw [exec_jmpLeInt, hr, condJump_error_target hc (State.getInt_ok_iff.2 ha) (State.getInt_ok_iff.2 hb),
      State.complete_error]

/-- Settles O15: a state with no segment meets the invariant, and `load` moves neither segments nor cursor. -/
theorem resetIsWellFormed : Obligations.ResetIsWellFormed := by
  have hcon : ∀ img : List Byte, img.length < 2 ^ 64 →
      (State.construct img).wf = true ∧ (State.construct img).withinCapacity :=
    fun img himg => ⟨State.wf_of_no_segments himg rfl, Nat.zero_le _⟩
  refine ⟨fun img himg => ⟨hcon img himg, fun s => ⟨fun hwf => ?_, id⟩⟩, hcon [] (by decide)⟩
  obtain ⟨-, hheap⟩ := State.wf_iff.1 hwf
  exact State.wf_iff.2 ⟨himg, hheap⟩

/-- Settles O30. -/
theorem typedReadsFollowTheTag : Obligations.TypedReadsFollowTheTag := by
  intro s i
  refine ⟨fun h => ⟨fun v => State.getInt_reg h, State.getInt_reg_mismatch h, fun bs => State.getStr_reg h,
    State.getStr_reg_mismatch h⟩, ?_, fun h => ?_⟩
  · rintro rfl
    exact ⟨s.getInt_pcIndex, s.getStr_pcIndex⟩
  · exact ⟨State.getInt_invalid h.le (ne_pcIndex_of_lt h), State.getStr_invalid h.le (ne_pcIndex_of_lt h)⟩

/-- Settles O31. -/
theorem typedWritesReplaceTagAndPayload : Obligations.TypedWritesReplaceTagAndPayload := by
  intro s i v bs
  refine ⟨fun h => ⟨State.putInt_reg h v, State.putStr_reg h bs⟩, ?_, fun h => ?_⟩
  · rintro rfl
    exact ⟨s.putInt_pcIndex v, s.putStr_pcIndex bs⟩
  · exact ⟨State.putInt_invalid h.le (ne_pcIndex_of_lt h) v, State.putStr_invalid h.le (ne_pcIndex_of_lt h) bs⟩

/-- Settles O54: the source is read first, then the value is written as `putAny` does. -/
theorem movCopiesTheTaggedValue : Obligations.MovCopiesTheTaggedValue := by
  intro s d r
  refine ⟨fun h => ?_, ?_, fun h hp => ?_⟩
  · have hx : exec (.mov d r) s = s.complete (s.putAny d s.regs[r.toNat]) := by
      simp [exec, execMov, State.copyReg, State.getAny_reg h]
    rw [hx]
    exact endsWritingValue_putAny s d _
  · rintro rfl
    rfl
  · simp [exec, execMov, State.copyReg, State.getAny_invalid h hp]

/-- Settles O56: the write is made in the state whose draw was taken. -/
theorem randomWritesAFreshDraw : Obligations.RandomWritesAFreshDraw :=
  fun s d => endsWritingInt_putInt s.drawn d (Config.draw s.drawCount)

/-- Settles O57. -/
theorem constructSetsTheResetValues : Obligations.ConstructSetsTheResetValues :=
  ⟨fun _ => ⟨fun _ h => Vector.getElem_replicate h, rfl, rfl, rfl, rfl, rfl, rfl, rfl, rfl⟩, rfl⟩

/-- Settles O59: each host operation looks at the image's length and at whether a run is under way. -/
theorem hostOperationsAdmitOrRefuse : Obligations.HostOperationsAdmitOrRefuse := by
  refine ⟨fun img => ⟨fun hl => if_pos hl, fun hl => ⟨if_neg (Nat.not_lt.2 hl), fun s => if_neg (Nat.not_lt.2 hl)⟩⟩,
    fun s img i v hl => ⟨fun hfree => ?_, fun hst hrun => ?_⟩⟩
  · rw [hostLoad_of_lt hl]
    simp [hostPut, State.duringRun_eq_false hfree, State.setReg]
  · rw [hostLoad_of_lt hl]
    simp [hostPut, s.duringRun_iff.2 ⟨hrun, hst⟩]

end Sys2Proof.Machine
end

section
/-! PROOFS of the statements about memory (20_memory.md): which byte an address reads, what a write and an allocation
do to it, then each statement from them. -/

namespace Sys2Proof.Machine

/-! ## The listed cells of a segment (R34, R62) -/

theorem Memory.wfFrom_cons_iff {lo hi a : Nat} {v : Byte} {m : Memory} :
    Memory.wfFrom lo hi ((a, v) :: m) = true ↔ lo ≤ a ∧ a < hi ∧ v ≠ 0 ∧ Memory.wfFrom (a + 1) hi m = true := by
  simp [Memory.wfFrom, and_assoc]

/-- The cells of a canonical memory are listed from its lower bound on. -/
theorem Memory.le_of_mem {lo hi a : Nat} {v : Byte} {m : Memory} (h : Memory.wfFrom lo hi m = true)
    (hm : (a, v) ∈ m) : lo ≤ a := by
  induction m generalizing lo with
  | nil => cases hm
  | cons c m ih =>
    obtain ⟨b, w⟩ := c
    obtain ⟨hlo, -, -, hrest⟩ := Memory.wfFrom_cons_iff.1 h
    rcases List.mem_cons.1 hm with heq | hm
    · cases heq
      exact hlo
    · have := ih hrest hm
      omega

/-- A cell listed in a canonical memory is the one its address reads: the addresses rise, so none comes before it. -/
theorem Memory.read_of_mem {lo hi a : Nat} {v : Byte} {m : Memory} (h : Memory.wfFrom lo hi m = true)
    (hm : (a, v) ∈ m) : Memory.read m a = v := by
  induction m generalizing lo with
  | nil => cases hm
  | cons c m ih =>
    obtain ⟨b, w⟩ := c
    obtain ⟨-, -, -, hrest⟩ := Memory.wfFrom_cons_iff.1 h
    rcases List.mem_cons.1 hm with heq | hm
    · cases heq
      exact if_pos rfl
    · have hne : a ≠ b := by
        have := Memory.le_of_mem hrest hm
        omega
      exact (if_neg hne).trans (ih hrest hm)

theorem Memory.read_of_not_mem {a : Nat} {m : Memory} (h : ∀ v, (a, v) ∉ m) : Memory.read m a = 0 := by
  induction m with
  | nil => rfl
  | cons c m ih =>
    obtain ⟨b, w⟩ := c
    have hne : a ≠ b := by
      rintro rfl
      exact h w List.mem_cons_self
    exact (if_neg hne).trans (ih fun v hv => h v (List.mem_cons_of_mem _ hv))

/-! ## The byte the segments hold at an address: that of its first owner (R61) -/

/-- The byte at an address of its first owner among the segments; none where no segment owns it. -/
def segmentByte (gs : List Segment) (a : Word) : Option Byte :=
  (gs.find? (·.contains a)).map fun g => Memory.read g.bytes a.toNat

section SegmentByte

variable {gs : List Segment} {g : Segment} {a b : Word}

@[simp] theorem segmentByte_nil (a : Word) : segmentByte [] a = none := rfl

theorem segmentByte_cons_owner (gs : List Segment) (h : g.contains a = true) :
    segmentByte (g :: gs) a = some (Memory.read g.bytes a.toNat) := by
  simp [segmentByte, h]

theorem segmentByte_cons_other (gs : List Segment) (h : g.contains a = false) :
    segmentByte (g :: gs) a = segmentByte gs a := by
  simp [segmentByte, h]

theorem segmentByte_append (gs ks : List Segment) (a : Word) :
    segmentByte (gs ++ ks) a = (segmentByte gs a).or (segmentByte ks a) := by
  rw [segmentByte, List.find?_append, Option.map_or, segmentByte, segmentByte]

theorem segmentByte_eq_none (h : ∀ g ∈ gs, g.contains a = false) : segmentByte gs a = none := by
  rw [segmentByte, List.find?_eq_none.2 fun g hg => by simp [h g hg], Option.map_none]

/-- The first owner is the one no owner stands before. -/
theorem segmentByte_first_owner {pre : List Segment} (post : List Segment) (hpre : ∀ p ∈ pre, p.contains a = false)
    (hg : g.contains a = true) : segmentByte (pre ++ g :: post) a = some (Memory.read g.bytes a.toNat) := by
  rw [segmentByte_append, segmentByte_eq_none hpre, Option.none_or, segmentByte_cons_owner post hg]

theorem writeSegments_cons_owner (gs : List Segment) (v : Byte) (h : g.contains a = true) :
    writeSegments (g :: gs) a v = { g with bytes := Memory.write g.bytes a.toNat v } :: gs :=
  if_pos h

theorem writeSegments_cons_other (gs : List Segment) (v : Byte) (h : g.contains a = false) :
    writeSegments (g :: gs) a v = g :: writeSegments gs a v :=
  if_neg (by simp [h])

/-- A segment with other bytes contains the same addresses (R34). -/
theorem Segment.contains_with_bytes (g : Segment) (m : Memory) (a : Word) :
    Segment.contains { g with bytes := m } a = g.contains a := rfl

/-- A byte written to an owned address is read back (R63). -/
theorem segmentByte_writeSegments_same (v : Byte) (hwf : gs.all Segment.wf = true)
    (ho : ∃ g ∈ gs, g.contains a = true) : segmentByte (writeSegments gs a v) a = some v := by
  induction gs with
  | nil => simp at ho
  | cons g gs ih =>
    obtain ⟨hg, hgs⟩ : g.wf = true ∧ gs.all Segment.wf = true := by simpa using hwf
    cases hc : g.contains a with
    | true =>
      rw [writeSegments_cons_owner gs v hc, segmentByte_cons_owner gs (by rwa [Segment.contains_with_bytes])]
      exact congrArg some (Memory.read_write_same v hg)
    | false =>
      rw [writeSegments_cons_other gs v hc, segmentByte_cons_other _ hc]
      exact ih hgs (by simpa [hc] using ho)

/-- A write leaves what every other address reads (R63). -/
theorem segmentByte_writeSegments_other (gs : List Segment) (v : Byte) (hne : b ≠ a) :
    segmentByte (writeSegments gs a v) b = segmentByte gs b := by
  have hne' : b.toNat ≠ a.toNat := fun h => hne (BitVec.eq_of_toNat_eq h)
  induction gs with
  | nil => rfl
  | cons g gs ih =>
    cases hc : g.contains a with
    | true =>
      rw [writeSegments_cons_owner gs v hc]
      cases hb : g.contains b with
      | true =>
        rw [segmentByte_cons_owner gs hb, segmentByte_cons_owner gs (by rwa [Segment.contains_with_bytes]),
          Memory.read_write_other g.bytes v hne']
      | false =>
        rw [segmentByte_cons_other gs hb, segmentByte_cons_other gs (by rwa [Segment.contains_with_bytes])]
    | false =>
      rw [writeSegments_cons_other gs v hc]
      cases hb : g.contains b with
      | true => rw [segmentByte_cons_owner _ hb, segmentByte_cons_owner _ hb]
      | false => rw [segmentByte_cons_other _ hb, segmentByte_cons_other _ hb, ih]

end SegmentByte

/-! ## A write keeps the invariant: the segments stay where they are (R34, R35, R63) -/

theorem heapTotal_writeSegments (gs : List Segment) (a : Word) (v : Byte) :
    heapTotal (writeSegments gs a v) = heapTotal gs := by
  have h := congrArg (fun l => (l.map fun p : Word × Word => p.2.toNat).sum) (writeSegments_place gs a v)
  simpa [heapTotal, Function.comp_def] using h

theorem contiguous_writeSegments (lo hi : Nat) (gs : List Segment) (a : Word) (v : Byte) :
    contiguous lo (writeSegments gs a v) hi = contiguous lo gs hi := by
  induction gs generalizing lo with
  | nil => rfl
  | cons g gs ih =>
    cases hc : g.contains a with
    | true => rw [writeSegments_cons_owner gs v hc]; rfl
    | false => rw [writeSegments_cons_other gs v hc, contiguous, contiguous, ih]

theorem State.wf_writeSegments {s : State} (h : s.wf = true) (a : Word) (v : Byte) :
    State.wf { s with segments := writeSegments s.segments a v } = true := by
  obtain ⟨himg, htot, hcon, hall⟩ := State.wf_iff.1 h
  refine State.wf_iff.2 ⟨himg, ?_, ?_, writeSegments_wf a v hall⟩
  · rwa [heapTotal_writeSegments]
  · rwa [State.heapBase, heapTotal_writeSegments, contiguous_writeSegments]

/-! ## MemRead and MemWrite, one equation per owner of the address (R61 to R63) -/

section Access

variable {s : State} {img : List Byte} {a : Word}

theorem State.resolve_no_image (hi : s.image = none) (a : Word) : s.resolve a = .error .invalidMemory := by
  simp [State.resolve, hi]

theorem State.resolve_image (hi : s.image = some img) (h : a.toNat < img.length) :
    s.resolve a = .ok (.image img) := by
  simp [State.resolve, hi, h]

theorem State.resolve_heap (hi : s.image = some img) (h : img.length ≤ a.toNat) :
    s.resolve a = (s.segments.find? (·.contains a)).elim (.error (.invalidHeapAccess a)) fun g => .ok (.heap g) := by
  cases hf : s.segments.find? (·.contains a) <;> simp [State.resolve, hi, Nat.not_lt.2 h, hf]

theorem State.memRead_no_image (hi : s.image = none) (a : Word) : s.memRead a = .error .invalidMemory := by
  rw [State.memRead, State.resolve_no_image hi]

theorem State.memRead_image (hi : s.image = some img) (h : a.toNat < img.length) :
    s.memRead a = .ok img[a.toNat] := by
  simp [State.memRead, State.resolve_image hi h, h]

theorem State.memRead_heap (hi : s.image = some img) (h : img.length ≤ a.toNat) :
    s.memRead a = (segmentByte s.segments a).elim (.error (.invalidHeapAccess a)) .ok := by
  rw [State.memRead, State.resolve_heap hi h, segmentByte]
  cases s.segments.find? (·.contains a) <;> rfl

theorem State.memRead_owned {v : Byte} (hi : s.image = some img) (h : img.length ≤ a.toNat)
    (hb : segmentByte s.segments a = some v) : s.memRead a = .ok v := by
  rw [State.memRead_heap hi h, hb, Option.elim_some]

theorem State.memRead_unowned (hi : s.image = some img) (h : img.length ≤ a.toNat)
    (hb : segmentByte s.segments a = none) : s.memRead a = .error (.invalidHeapAccess a) := by
  rw [State.memRead_heap hi h, hb, Option.elim_none]

theorem State.memWrite_no_image (hi : s.image = none) (a : Word) (v : Byte) :
    s.memWrite a v = .error .invalidMemory := by
  rw [State.memWrite, State.resolve_no_image hi]

theorem State.memWrite_image (hi : s.image = some img) (h : a.toNat < img.length) (v : Byte) :
    s.memWrite a v = .error (.readOnlyViolation a) := by
  rw [State.memWrite, State.resolve_image hi h]

theorem State.memWrite_unowned (hi : s.image = some img) (h : img.length ≤ a.toNat)
    (hno : ∀ g ∈ s.segments, g.contains a = false) (v : Byte) :
    s.memWrite a v = .error (.invalidHeapAccess a) := by
  rw [State.memWrite, State.resolve_heap hi h, List.find?_eq_none.2 fun g hg => by simp [hno g hg]]
  rfl

theorem State.memWrite_owned (hi : s.image = some img) (h : img.length ≤ a.toNat)
    (ho : ∃ g ∈ s.segments, g.contains a = true) (v : Byte) :
    s.memWrite a v = .ok { s with segments := writeSegments s.segments a v } := by
  obtain ⟨g, hg⟩ := Option.isSome_iff_exists.1 (List.find?_isSome.2 ho)
  rw [State.memWrite, State.resolve_heap hi h, hg]
  rfl

/-- With the same image, and the same byte in the segments where the image ends, an address reads the same. -/
theorem State.memRead_eq_of_segmentByte {t : State} (hi : t.image = s.image)
    (hb : segmentByte t.segments a = segmentByte s.segments a) : t.memRead a = s.memRead a := by
  cases himg : s.image with
  | none => rw [State.memRead_no_image himg, State.memRead_no_image (hi.trans himg)]
  | some img =>
    rcases Nat.lt_or_ge a.toNat img.length with h | h
    · rw [State.memRead_image himg h, State.memRead_image (hi.trans himg) h]
    · rw [State.memRead_heap himg h, State.memRead_heap (hi.trans himg) h, hb]

/-- Segments appended hide no byte: what could be read reads the same (R61, R66). -/
theorem State.memRead_append_segments {t : State} {gs : List Segment} {b : Byte} (hi : t.image = s.image)
    (hs : t.segments = s.segments ++ gs) (hb : s.memRead a = .ok b) : t.memRead a = .ok b := by
  cases himg : s.image with
  | none => cases (State.memRead_no_image himg a).symm.trans hb
  | some img =>
    rw [← hb]
    rcases Nat.lt_or_ge a.toNat img.length with h | h
    · rw [State.memRead_image himg h, State.memRead_image (hi.trans himg) h]
    · refine State.memRead_eq_of_segmentByte hi ?_
      cases hsb : segmentByte s.segments a with
      | none => cases (State.memRead_unowned himg h hsb).symm.trans hb
      | some c => rw [hs, segmentByte_append, hsb, Option.some_or]

end Access

/-! ## What an instruction does to memory (R64, R66) -/

/-- No instruction but HEAP touches the image, the segments or the cursor (R64). -/
theorem Effect.keeps_memory {i : Instr} {s t : State} (h : Effect i s t) (hi : ∀ r, i ≠ .heap r) :
    t.image = s.image ∧ t.segments = s.segments ∧ t.cursor = s.cursor := by
  cases h with
  | heap r n hr => exact absurd hr (hi r)
  | none | fault | reg | pc | emit | halt | drawReg | drawPc | drawFault => exact ⟨rfl, rfl, rfl⟩

theorem SameOrAllocated.segments_append {s t : State} (h : SameOrAllocated s t) :
    ∃ gs, t.segments = s.segments ++ gs := by
  obtain ⟨-, ⟨hs, -⟩ | ⟨n, -, -, hs, -⟩⟩ := h
  · exact ⟨[], by rw [hs, List.append_nil]⟩
  · exact ⟨_, hs⟩

/-- HEAP allocates the number of bytes its register reads (R200). -/
theorem exec_heap {s : State} {r : Byte} {n : Word} (h : s.ReadsInt r n) :
    exec (.heap r) s = s.complete (s.allocate n) := by
  simp [exec, execHeap, State.getInt_ok_iff.2 h]

/-- An allocation leaves what every address outside the new segment reads (R65). -/
theorem State.memRead_allocated {s : State} {n a : Word}
    (ha : a.toNat < s.cursor.toNat ∨ s.cursor.toNat + n.toNat ≤ a.toNat) :
    State.memRead { s with segments := s.segments ++ [⟨s.cursor, n, []⟩], cursor := s.cursor + n } a =
      s.memRead a := by
  have hnew : Segment.contains ⟨s.cursor, n, []⟩ a = false := by
    rw [Bool.eq_false_iff, Ne, Segment.contains_iff]
    simp only
    omega
  refine State.memRead_eq_of_segmentByte rfl ?_
  rw [segmentByte_append, segmentByte_cons_other [] hnew, segmentByte_nil, Option.or_none]

/-! ## A read of several bytes (R67, R131) -/

/-- A byte put below the bits of a word, modulo 2^64. -/
theorem ofNat_shiftLeft_or_byte (m : Nat) (b : Byte) :
    BitVec.ofNat 64 m <<< 8 ||| b.setWidth 64 = BitVec.ofNat 64 (256 * m + b.toNat) := by
  have hdisj : BitVec.ofNat 64 m <<< 8 &&& b.setWidth 64 = 0#64 := by
    ext i hi
    rcases Nat.lt_or_ge i 8 with h | h
    · simp [h]
    · simp [BitVec.getLsbD_of_ge b i h]
  rw [← BitVec.add_eq_or_of_and_eq_zero _ _ hdisj]
  apply BitVec.eq_of_toNat_eq
  simp only [BitVec.toNat_add, BitVec.toNat_shiftLeft, BitVec.toNat_ofNat, BitVec.toNat_setWidth, Nat.shiftLeft_eq]
  omega

/-- Bytes read in rising address order are the big-endian digits below those read before (R67). -/
theorem State.memReadBE_of_bytes {s : State} {bs : List Byte} {addr : Word} (m : Nat)
    (h : ∀ (k : Nat) (hk : k < bs.length), s.memRead (addr + BitVec.ofNat 64 k) = .ok bs[k]) :
    s.memReadBE bs.length addr (BitVec.ofNat 64 m) =
      .ok (BitVec.ofNat 64 (bs.foldl (fun n b => 256 * n + b.toNat) m)) := by
  induction bs generalizing addr m with
  | nil => rfl
  | cons b bs ih =>
    have hfirst : s.memRead addr = .ok b := by simpa using h 0 (Nat.succ_pos _)
    have hrest : ∀ (k : Nat) (hk : k < bs.length), s.memRead (addr + 1 + BitVec.ofNat 64 k) = .ok bs[k] := by
      intro k hk
      have hnext : addr + 1 + BitVec.ofNat 64 k = addr + BitVec.ofNat 64 (k + 1) := by
        rw [Nat.add_comm k 1, BitVec.ofNat_add, ← BitVec.add_assoc]
        rfl
      rw [hnext]
      exact h (k + 1) (Nat.succ_lt_succ hk)
    simp only [List.length_cons, State.memReadBE, hfirst, ok_bind, ofNat_shiftLeft_or_byte, List.foldl_cons]
    exact ih _ hrest

/-! ## The obligations -/

/-- Settles O32: the image's addresses read the image, every other one its first owner's cell. -/
theorem memReadFindsTheOwner : Obligations.MemReadFindsTheOwner := by
  refine fun s a => ⟨fun hi => State.memRead_no_image hi a, fun img hi => ⟨State.memRead_image hi, ?_, ?_⟩⟩
  · intro h pre g post hs hpre hlo hhi
    have hread : s.memRead a = .ok (Memory.read g.bytes a.toNat) :=
      State.memRead_owned hi h (hs ▸ segmentByte_first_owner post hpre (Segment.contains_iff.2 ⟨hlo, hhi⟩))
    refine ⟨fun hno => ?_, fun v hwf hv => ?_⟩
    · rw [hread, Memory.read_of_not_mem hno]
    · rw [hread, Memory.read_of_mem hwf hv]
  · exact fun h hno => State.memRead_unowned hi h (segmentByte_eq_none hno)

/-- Settles O34. -/
theorem allocateAppendsOrExhausts : Obligations.AllocateAppendsOrExhausts :=
  ⟨fun _ _ _ => ⟨fun h => if_pos h, fun hcap hcur => if_neg (not_or.2 ⟨Nat.not_lt.2 hcap, Nat.not_lt.2 hcur⟩)⟩,
    fun _ _ => rfl⟩

/-- Settles O52: HEAP is the allocation of what its register reads. -/
theorem heapAppendsASegment : Obligations.HeapAppendsASegment := by
  intro s r n hr
  obtain ⟨hexhaust, happend⟩ := allocateAppendsOrExhausts.1 Config.heapCapacity s n
  refine ⟨fun hcap hcur => ?_, fun h => ?_⟩
  · rw [exec_heap hr, State.allocate, happend hcap hcur, State.complete_ok]
  · rw [exec_heap hr, State.allocate, hexhaust h, State.complete_error]

/-- Settles O21: no effect but HEAP's touches memory, and HEAP's allocation adds no owner outside its segment. -/
theorem instructionsKeepMemory : Obligations.InstructionsKeepMemory := by
  refine ⟨fun i s t hi h => ?_, fun r n s t hr h a ha => ?_⟩
  · obtain ⟨himg, hseg, hcur⟩ := (exec_effect h).keeps_memory hi
    exact ⟨hseg, hcur, State.memRead_congr himg hseg⟩
  · rw [exec_heap hr, State.allocate] at h
    rcases s.allocateWith_cases Config.heapCapacity n with ⟨-, -, he⟩ | ⟨-, he⟩ <;> rw [he] at h <;> cases h
    · exact State.memRead_allocated ha
    · exact State.memRead_congr rfl rfl a

/-- Settles O22: a step keeps the memory or allocates at the end of the segments. -/
theorem heapIsAppendOnly : Obligations.HeapIsAppendOnly := by
  refine ⟨fun s t h => ?_, fun _ _ => ⟨rfl, rfl⟩⟩
  have hmem := step_sameOrAllocated h
  obtain ⟨gs, hgs⟩ := hmem.segments_append
  exact ⟨⟨gs, hgs⟩, fun _ _ => State.memRead_append_segments hmem.1 hgs⟩

/-- Settles O33: a write is one of its four equations, and replaces one cell of the first owner. -/
theorem memWriteRoundTrips : Obligations.MemWriteRoundTrips := by
  refine ⟨fun s a v hi => State.memWrite_no_image hi a v,
    fun i s t h => (exec_effect h).sameOrAllocated.segments_append, fun s img a v hwf hi => ?_⟩
  refine ⟨fun h => State.memWrite_image hi h v, fun h hno => State.memWrite_unowned hi h hno v, fun h ho => ?_⟩
  obtain ⟨-, -, -, hall⟩ := State.wf_iff.1 hwf
  refine ⟨_, State.memWrite_owned hi h ho v, ?_, fun b hne => ?_, State.wf_writeSegments hwf a v, rfl,
    writeSegments_place s.segments a v, writeSegments_cells s.segments a v⟩
  · refine State.memRead_owned ?_ h (segmentByte_writeSegments_same v hall ho)
    exact hi
  · exact State.memRead_eq_of_segmentByte rfl (segmentByte_writeSegments_other s.segments v hne)

/-- Settles O37: the size is valid, the address register reads, and the bytes read are the value's digits. -/
theorem loadIntMemReadsBigEndian : Obligations.LoadIntMemReadsBigEndian := by
  intro s d a n addr bs hr h1 h8 hlen hbytes
  have hval : s.memReadBE n.toNat addr 0#64 = .ok (BitVec.ofNat 64 (bigEndian bs)) :=
    hlen ▸ State.memReadBE_of_bytes 0 hbytes
  have hx : exec (.loadIntMem d a n) s = s.complete (s.putInt d (BitVec.ofNat 64 (bigEndian bs))) := by
    simp [exec, execLoadIntMem, checkSize_ok h1 h8, State.getInt_ok_iff.2 hr, hval]
  rw [hx]
  exact endsWritingInt_putInt s d _

end Sys2Proof.Machine
end

section
/-! PROOFS of the statements about the encoding (30_encoding.md): fields and formats, the opcode map, the decoder as
the inverse of the encoder, fetch and step; then each statement from them. -/

namespace Sys2Proof

open Machine (bigEndian)

/-! ## A field of two halves, the first the most significant (R92, R97) -/

section Halves

variable {w n : Nat}

theorem toNat_ofNat_halves (hn : n = w + w) (x y : BitVec w) :
    (BitVec.ofNat n (2 ^ w * x.toNat + y.toNat)).toNat = 2 ^ w * x.toNat + y.toNat := by
  subst hn
  have hlt : 2 ^ w * x.toNat + y.toNat < 2 ^ (w + w) :=
    calc 2 ^ w * x.toNat + y.toNat
      _ < 2 ^ w * (x.toNat + 1) := by rw [Nat.mul_succ]; exact Nat.add_lt_add_left y.isLt _
      _ ≤ 2 ^ w * 2 ^ w := Nat.mul_le_mul_left _ x.isLt
      _ = 2 ^ (w + w) := (Nat.pow_add 2 w w).symm
  rw [BitVec.toNat_ofNat, Nat.mod_eq_of_lt hlt]

theorem high_half (hn : n = w + w) (x y : BitVec w) :
    BitVec.ofNat w ((BitVec.ofNat n (2 ^ w * x.toNat + y.toNat)).toNat / 2 ^ w) = x := by
  rw [toNat_ofNat_halves hn, Nat.mul_add_div (Nat.two_pow_pos w), Nat.div_eq_of_lt y.isLt, Nat.add_zero,
    BitVec.ofNat_toNat, BitVec.setWidth_eq]

theorem low_half (hn : n = w + w) (x y : BitVec w) :
    BitVec.ofNat w (BitVec.ofNat n (2 ^ w * x.toNat + y.toNat)).toNat = y := by
  apply BitVec.eq_of_toNat_eq
  rw [toNat_ofNat_halves hn, BitVec.toNat_ofNat, Nat.mul_add_mod, Nat.mod_eq_of_lt y.isLt]

/-- Every field is made of two halves. -/
theorem exists_halves (hn : n = w + w) (v : BitVec n) :
    ∃ x y : BitVec w, v = BitVec.ofNat n (2 ^ w * x.toNat + y.toNat) := by
  refine ⟨BitVec.ofNat w (v.toNat / 2 ^ w), BitVec.ofNat w v.toNat, BitVec.eq_of_toNat_eq ?_⟩
  have hhigh : v.toNat / 2 ^ w < 2 ^ w := by
    rw [Nat.div_lt_iff_lt_mul (Nat.two_pow_pos w), ← Nat.pow_add, ← hn]
    exact v.isLt
  rw [toNat_ofNat_halves hn, BitVec.toNat_ofNat, BitVec.toNat_ofNat, Nat.mod_eq_of_lt hhigh, Nat.div_add_mod]

end Halves

theorem exists_be16 (v : BitVec 16) : ∃ b1 b0, v = be16 b1 b0 := exists_halves (w := 8) rfl v

theorem exists_be32 (v : BitVec 32) : ∃ b3 b2 b1 b0, v = be32 b3 b2 b1 b0 := by
  obtain ⟨x, y, rfl⟩ := exists_halves (w := 16) rfl v
  obtain ⟨b3, b2, rfl⟩ := exists_be16 x
  obtain ⟨b1, b0, rfl⟩ := exists_be16 y
  exact ⟨b3, b2, b1, b0, rfl⟩

theorem exists_be64 (v : BitVec 64) : ∃ b7 b6 b5 b4 b3 b2 b1 b0, v = be64 b7 b6 b5 b4 b3 b2 b1 b0 := by
  obtain ⟨x, y, rfl⟩ := exists_halves (w := 32) rfl v
  obtain ⟨b7, b6, b5, b4, rfl⟩ := exists_be32 x
  obtain ⟨b3, b2, b1, b0, rfl⟩ := exists_be32 y
  exact ⟨b7, b6, b5, b4, b3, b2, b1, b0, rfl⟩

@[simp] theorem bytes16_be16 (b1 b0 : Byte) : bytes16 (be16 b1 b0) = [b1, b0] := by
  rw [bytes16, be16, high_half rfl, low_half rfl]

@[simp] theorem bytes32_be32 (b3 b2 b1 b0 : Byte) : bytes32 (be32 b3 b2 b1 b0) = [b3, b2, b1, b0] := by
  rw [bytes32, be32, high_half rfl, low_half rfl, bytes16_be16, bytes16_be16]
  rfl

@[simp] theorem bytes64_be64 (b7 b6 b5 b4 b3 b2 b1 b0 : Byte) :
    bytes64 (be64 b7 b6 b5 b4 b3 b2 b1 b0) = [b7, b6, b5, b4, b3, b2, b1, b0] := by
  rw [bytes64, be64, high_half rfl, low_half rfl, bytes32_be32, bytes32_be32]
  rfl

theorem be16_toNat (b1 b0 : Byte) : (be16 b1 b0).toNat = bigEndian [b1, b0] := by
  rw [be16, toNat_ofNat_halves (w := 8) rfl]
  simp [bigEndian]

theorem be32_toNat (b3 b2 b1 b0 : Byte) : (be32 b3 b2 b1 b0).toNat = bigEndian [b3, b2, b1, b0] := by
  rw [be32, toNat_ofNat_halves (w := 16) rfl, be16_toNat, be16_toNat]
  simp only [bigEndian, List.foldl_cons, List.foldl_nil]
  omega

theorem be64_toNat (b7 b6 b5 b4 b3 b2 b1 b0 : Byte) :
    (be64 b7 b6 b5 b4 b3 b2 b1 b0).toNat = bigEndian [b7, b6, b5, b4, b3, b2, b1, b0] := by
  rw [be64, toNat_ofNat_halves (w := 32) rfl, be32_toNat, be32_toNat]
  simp only [bigEndian, List.foldl_cons, List.foldl_nil]
  omega

/-! ## What the reader of each format takes from the bytes (R92) -/

section Formats

variable {l rest : List Byte} {i : Instr}

theorem operands1_eq_some {mk : Byte → Instr} (h : operands1 mk l = some (i, rest)) :
    ∃ a, l = a :: rest ∧ i = mk a := by
  unfold operands1 at h
  split at h <;> cases h
  exact ⟨_, rfl, rfl⟩

theorem operands2_eq_some {mk : Byte → Byte → Instr} (h : operands2 mk l = some (i, rest)) :
    ∃ a b, l = a :: b :: rest ∧ i = mk a b := by
  unfold operands2 at h
  split at h <;> cases h
  exact ⟨_, _, rfl, rfl⟩

theorem operands3_eq_some {mk : Byte → Byte → Byte → Instr} (h : operands3 mk l = some (i, rest)) :
    ∃ a b c, l = a :: b :: c :: rest ∧ i = mk a b c := by
  unfold operands3 at h
  split at h <;> cases h
  exact ⟨_, _, _, rfl, rfl⟩

theorem operands4_eq_some {mk : Byte → Byte → Byte → Byte → Instr} (h : operands4 mk l = some (i, rest)) :
    ∃ a b c d, l = a :: b :: c :: d :: rest ∧ i = mk a b c d := by
  unfold operands4 at h
  split at h <;> cases h
  exact ⟨_, _, _, _, rfl, rfl⟩

theorem field16_eq_some_iff {mk : BitVec 16 → Instr} :
    field16 mk l = some (i, rest) ↔ ∃ v, l = bytes16 v ++ rest ∧ i = mk v := by
  constructor
  · intro h
    unfold field16 at h
    split at h <;> cases h
    exact ⟨_, by rw [bytes16_be16]; rfl, rfl⟩
  · rintro ⟨v, rfl, rfl⟩
    obtain ⟨b1, b0, rfl⟩ := exists_be16 v
    rw [bytes16_be16]
    rfl

theorem field32_eq_some_iff {mk : BitVec 32 → Instr} :
    field32 mk l = some (i, rest) ↔ ∃ v, l = bytes32 v ++ rest ∧ i = mk v := by
  constructor
  · intro h
    unfold field32 at h
    split at h <;> cases h
    exact ⟨_, by rw [bytes32_be32]; rfl, rfl⟩
  · rintro ⟨v, rfl, rfl⟩
    obtain ⟨b3, b2, b1, b0, rfl⟩ := exists_be32 v
    rw [bytes32_be32]
    rfl

theorem field64_eq_some_iff {mk : BitVec 64 → Instr} :
    field64 mk l = some (i, rest) ↔ ∃ v, l = bytes64 v ++ rest ∧ i = mk v := by
  constructor
  · intro h
    unfold field64 at h
    split at h <;> cases h
    exact ⟨_, by rw [bytes64_be64]; rfl, rfl⟩
  · rintro ⟨v, rfl, rfl⟩
    obtain ⟨b7, b6, b5, b4, b3, b2, b1, b0, rfl⟩ := exists_be64 v
    rw [bytes64_be64]
    rfl

theorem after1_eq_some {next : Byte → List Byte → Option (Instr × List Byte)} {r : Instr × List Byte}
    (h : after1 next l = some r) : ∃ a l', l = a :: l' ∧ next a l' = some r := by
  unfold after1 at h
  split at h
  · exact ⟨_, _, rfl, h⟩
  · cases h

theorem after3_eq_some {next : Byte → Byte → Byte → List Byte → Option (Instr × List Byte)} {r : Instr × List Byte}
    (h : after3 next l = some r) : ∃ a b c l', l = a :: b :: c :: l' ∧ next a b c l' = some r := by
  unfold after3 at h
  split at h
  · exact ⟨_, _, _, _, rfl, h⟩
  · cases h

theorem strOk_cons_iff {c : Byte} {s : List Byte} : strOk (c :: s) = true ↔ c ≠ 0 ∧ strOk s = true := by
  simp [strOk]

/-- A `str` field is read up to the first 0x00, which is consumed (R109). -/
theorem takeStr_append {s : List Byte} (hs : strOk s = true) (rest : List Byte) :
    takeStr (s ++ 0 :: rest) = some (s, rest) := by
  induction s with
  | nil => rfl
  | cons c s ih =>
    obtain ⟨hc, hs⟩ := strOk_cons_iff.1 hs
    rw [List.cons_append, takeStr, if_neg hc, ih hs]

theorem takeStr_eq_some {s : List Byte} (h : takeStr l = some (s, rest)) :
    strOk s = true ∧ l = s ++ 0 :: rest := by
  induction l generalizing s with
  | nil => cases h
  | cons c l ih =>
    rw [takeStr] at h
    split at h
    · next hc =>
      cases h
      exact ⟨rfl, by rw [hc, List.nil_append]⟩
    · next hc =>
      split at h <;> cases h
      next hl =>
        obtain ⟨hs, rfl⟩ := ih hl
        exact ⟨strOk_cons_iff.2 ⟨hc, hs⟩, rfl⟩

end Formats

/-! ## The opcode map (R93 to R95) -/

section OpcodeMap

variable {map : Opcode → Byte} {b : Byte}

theorem mem_opcodeList (o : Opcode) : o ∈ opcodeList := by
  cases o <;> decide

theorem map_of_opcodeOf {o : Opcode} (h : opcodeOf map b = some o) : map o = b :=
  eq_of_beq (List.find?_some (p := fun o => map o == b) h)

theorem opcodeOf_eq_none_iff : opcodeOf map b = none ↔ ∀ o, map o ≠ b := by
  simp [opcodeOf, List.find?_eq_none, mem_opcodeList]

/-- Under an injective map each class is the one that owns its byte (R94). -/
theorem opcodeOf_map (hmap : ∀ o p, map o = map p → o = p) (o : Opcode) : opcodeOf map (map o) = some o := by
  cases h : opcodeOf map (map o) with
  | none => exact absurd rfl (opcodeOf_eq_none_iff.1 h o)
  | some p => rw [hmap p o (map_of_opcodeOf h)]

/-- The default map numbers the classes from 0x00 on, in the order of R93. -/
theorem opcodeList_map_opcodeMap : opcodeList.map opcodeMap = (List.range 37).map (BitVec.ofNat 8) := by
  decide

theorem opcodeMap_injective (o p : Opcode) (h : opcodeMap o = opcodeMap p) : o = p := by
  have hnodup : (opcodeList.map opcodeMap).Nodup := by decide
  exact List.inj_on_of_nodup_map hnodup (mem_opcodeList o) (mem_opcodeList p) h

/-- The default map uses the bytes 0x00 to 0x24 and no other (R93). -/
theorem exists_opcodeMap_eq_iff (b : Byte) : (∃ o, opcodeMap o = b) ↔ b.toNat ≤ 0x24 := by
  have hmem : (∃ o, opcodeMap o = b) ↔ b ∈ opcodeList.map opcodeMap := by simp [mem_opcodeList]
  rw [hmem, opcodeList_map_opcodeMap, List.mem_map]
  constructor
  · rintro ⟨n, hn, rfl⟩
    rw [List.mem_range] at hn
    rw [BitVec.toNat_ofNat]
    omega
  · exact fun h => ⟨b.toNat, List.mem_range.2 (by omega), by rw [BitVec.ofNat_toNat, BitVec.setWidth_eq]⟩

end OpcodeMap

/-! ## The decoder is the inverse of the encoder (R92, R100, R109) -/

/-- The operands read are the instruction's own operand bytes: the formats of R92, class by class. -/
theorem decodeOperands_eq_some {o : Opcode} {l rest : List Byte} {i : Instr}
    (h : decodeOperands o l = some (i, rest)) :
    i.opcode = o ∧ l = operandBytes i ++ rest ∧ i.wellFormed = true ∧ i.canonical = i := by
  cases o with
  | nop | loadInt | storeInt | storeInt8 | storeInt16 | storeInt32 | storeInt64 | stop =>
    cases h
    exact ⟨rfl, rfl, rfl, rfl⟩
  | incInt | decInt | printInt | printStr | random | jmp8 | jmpInt | heap =>
    obtain ⟨a, rfl, rfl⟩ := operands1_eq_some h
    exact ⟨rfl, rfl, rfl, rfl⟩
  | loadInt8 | mov | info =>
    obtain ⟨a, b, rfl, rfl⟩ := operands2_eq_some h
    exact ⟨rfl, rfl, rfl, rfl⟩
  | loadIntMem | addInt | subInt | mulInt | divInt | modInt =>
    obtain ⟨a, b, c, rfl, rfl⟩ := operands3_eq_some h
    exact ⟨rfl, rfl, rfl, rfl⟩
  | jmpLe8 | jmpLeInt =>
    obtain ⟨a, b, c, d, rfl, rfl⟩ := operands4_eq_some h
    exact ⟨rfl, rfl, rfl, rfl⟩
  | jmp16 =>
    obtain ⟨v, rfl, rfl⟩ := field16_eq_some_iff.1 h
    exact ⟨rfl, rfl, rfl, rfl⟩
  | jmp32 =>
    obtain ⟨v, rfl, rfl⟩ := field32_eq_some_iff.1 h
    exact ⟨rfl, rfl, rfl, rfl⟩
  | jmp64 =>
    obtain ⟨v, rfl, rfl⟩ := field64_eq_some_iff.1 h
    exact ⟨rfl, rfl, rfl, rfl⟩
  | loadInt16 =>
    obtain ⟨d, l, rfl, h⟩ := after1_eq_some h
    obtain ⟨v, rfl, rfl⟩ := field16_eq_some_iff.1 h
    exact ⟨rfl, rfl, rfl, rfl⟩
  | loadInt32 =>
    obtain ⟨d, l, rfl, h⟩ := after1_eq_some h
    obtain ⟨v, rfl, rfl⟩ := field32_eq_some_iff.1 h
    exact ⟨rfl, rfl, rfl, rfl⟩
  | loadInt64 =>
    obtain ⟨d, l, rfl, h⟩ := after1_eq_some h
    obtain ⟨v, rfl, rfl⟩ := field64_eq_some_iff.1 h
    exact ⟨rfl, rfl, rfl, rfl⟩
  | jmpLe16 =>
    obtain ⟨c, a, b, l, rfl, h⟩ := after3_eq_some h
    obtain ⟨v, rfl, rfl⟩ := field16_eq_some_iff.1 h
    exact ⟨rfl, rfl, rfl, rfl⟩
  | jmpLe32 =>
    obtain ⟨c, a, b, l, rfl, h⟩ := after3_eq_some h
    obtain ⟨v, rfl, rfl⟩ := field32_eq_some_iff.1 h
    exact ⟨rfl, rfl, rfl, rfl⟩
  | jmpLe64 =>
    obtain ⟨c, a, b, l, rfl, h⟩ := after3_eq_some h
    obtain ⟨v, rfl, rfl⟩ := field64_eq_some_iff.1 h
    exact ⟨rfl, rfl, rfl, rfl⟩
  | loadStr =>
    obtain ⟨d, l, rfl, h⟩ := after1_eq_some h
    obtain ⟨⟨s, rest⟩, hs, he⟩ := Option.map_eq_some_iff.1 h
    cases he
    obtain ⟨hok, rfl⟩ := takeStr_eq_some hs
    exact ⟨rfl, by simp [operandBytes], hok, rfl⟩

/-- An instruction's operand bytes read back, STORE_STR's as LOAD_STR's (R161). The formats without a multi-byte
field compute. -/
theorem decodeOperands_operandBytes {i : Instr} (hi : i.wellFormed = true) (rest : List Byte) :
    decodeOperands i.opcode (operandBytes i ++ rest) = some (i.canonical, rest) := by
  cases i with
  | jmp16 v | loadInt16 d v | jmpLe16 c a b v => exact field16_eq_some_iff.2 ⟨v, rfl, rfl⟩
  | jmp32 v | loadInt32 d v | jmpLe32 c a b v => exact field32_eq_some_iff.2 ⟨v, rfl, rfl⟩
  | jmp64 v | loadInt64 d v | jmpLe64 c a b v => exact field64_eq_some_iff.2 ⟨v, rfl, rfl⟩
  | loadStr d s | storeStr d s =>
    have hstr : takeStr ((s ++ [0]) ++ rest) = some (s, rest) := by
      rw [List.append_assoc]
      exact takeStr_append hi rest
    exact congrArg (Option.map _) hstr
  | _ => rfl

/-- STORE_STR has the encoding of its LOAD_STR (R94, R161). -/
theorem encodeWith_canonical (map : Opcode → Byte) (i : Instr) : encodeWith map i.canonical = encodeWith map i := by
  cases i <;> rfl

/-- The decoder answers an instruction where a class owns the first byte and reads its operands from the others. -/
theorem decodeWith_eq_instr_iff_operands {map : Opcode → Byte} {l rest : List Byte} {i : Instr} :
    decodeWith map l = .instr i rest ↔
      ∃ op l' o, l = op :: l' ∧ opcodeOf map op = some o ∧ decodeOperands o l' = some (i, rest) := by
  cases l with
  | nil => simp [decodeWith]
  | cons op l =>
    unfold decodeWith
    cases ho : opcodeOf map op with
    | none => simp [ho]
    | some o => cases hd : decodeOperands o l <;> simp [ho, hd, Prod.ext_iff]

/-- The decoder answers an instruction exactly on its encoding, and on no other bytes (R90, R92, R100). -/
theorem decodeWith_eq_instr_iff_encode {map : Opcode → Byte} (hmap : ∀ o p, map o = map p → o = p) {l rest : List Byte}
    {i : Instr} :
    decodeWith map l = .instr i rest ↔ l = encodeWith map i ++ rest ∧ i.wellFormed = true ∧ i.canonical = i := by
  rw [decodeWith_eq_instr_iff_operands]
  constructor
  · rintro ⟨op, l', o, rfl, ho, hd⟩
    obtain ⟨rfl, rfl, hwf, hcan⟩ := decodeOperands_eq_some hd
    exact ⟨by rw [← map_of_opcodeOf ho]; rfl, hwf, hcan⟩
  · rintro ⟨rfl, hwf, hcan⟩
    exact ⟨map i.opcode, operandBytes i ++ rest, i.opcode, rfl, opcodeOf_map hmap i.opcode,
      by rw [decodeOperands_operandBytes hwf, hcan]⟩

theorem decode_eq_instr_iff {l rest : List Byte} {i : Instr} :
    decode l = .instr i rest ↔ l = encode i ++ rest ∧ i.wellFormed = true ∧ i.canonical = i :=
  decodeWith_eq_instr_iff_encode opcodeMap_injective

/-- Naming STORE_STR as LOAD_STR once is naming it so for good (R161). -/
theorem canonical_canonical (i : Instr) : i.canonical.canonical = i.canonical := by
  cases i <;> rfl

theorem wellFormed_canonical (i : Instr) : i.canonical.wellFormed = i.wellFormed := by
  cases i <;> rfl

/-- Every instruction's encoding has the length R92 gives it. -/
theorem encode_length (i : Instr) : (encode i).length = i.length := by
  cases i with
  | loadStr d s => exact (Laws.EncodedLength.loadStr d s).2
  | storeStr d s => exact (Laws.EncodedLength.storeStr d s).2
  | _ => rfl

theorem decode_unassigned {b : Byte} (hb : 0x24 < b.toNat) (l : List Byte) : decode (b :: l) = .unassigned b := by
  have hnone : opcodeOf opcodeMap b = none :=
    opcodeOf_eq_none_iff.2 fun o ho => absurd ((exists_opcodeMap_eq_iff b).1 ⟨o, ho⟩) (Nat.not_le.2 hb)
  rw [decode, decodeWith, hnone]

/-! ## The obligations about the encoding -/

/-- Settles O1: the encoding is that of the canonical name, and the decoder answers on an encoding. -/
theorem decodeOfEncodeIsTheInstruction : Obligations.DecodeOfEncodeIsTheInstruction := by
  intro map hmap i rest hwf
  rw [← encodeWith_canonical]
  exact (decodeWith_eq_instr_iff_encode hmap).2 ⟨rfl, (wellFormed_canonical i).trans hwf, canonical_canonical i⟩

/-- Settles O2: the decoder answers an instruction on its encoding only. -/
theorem decodedBytesAreTheEncoding : Obligations.DecodedBytesAreTheEncoding := by
  intro l i rest h
  obtain ⟨hl, hwf, hcan⟩ := decode_eq_instr_iff.1 h
  exact ⟨hl, encode_length i, hwf, hcan⟩

/-- Settles O3: the map numbers the classes from 0x00 on. -/
theorem defaultOpcodeMapIsInjective : Obligations.DefaultOpcodeMapIsInjective :=
  ⟨opcodeMap_injective, exists_opcodeMap_eq_iff, fun _ _ => rfl, fun _ l hb => decode_unassigned hb l⟩

/-- Settles O4: each word is its instruction's encoding. -/
theorem writtenOutWordsDecode : Obligations.WrittenOutWordsDecode := by
  refine ⟨?_, ?_, ?_, ?_, ?_, ?_, ?_, ?_⟩ <;> exact decode_eq_instr_iff.2 ⟨rfl, rfl, rfl⟩

/-- Settles O5: each format reads its field as `be16`, `be32` or `be64`. -/
theorem fieldsAreBigEndian : Obligations.FieldsAreBigEndian := by
  intro d x y b7 b6 b5 b4 b3 b2 b1 b0 rest
  have h16 := be16_toNat b1 b0
  have h32 := be32_toNat b3 b2 b1 b0
  have h64 := be64_toNat b7 b6 b5 b4 b3 b2 b1 b0
  exact ⟨⟨⟨_, rfl, h16⟩, ⟨_, rfl, h32⟩, ⟨_, rfl, h64⟩⟩, ⟨⟨_, rfl, h16⟩, ⟨_, rfl, h32⟩, ⟨_, rfl, h64⟩⟩,
    ⟨_, rfl, h16⟩, ⟨_, rfl, h32⟩, ⟨_, rfl, h64⟩⟩

end Sys2Proof
namespace Sys2Proof.Machine

/-- The address k past the next one is k + 1 past this one, modulo 2^64. -/
theorem add_one_add_ofNat (a : Word) (k : Nat) : a + 1 + BitVec.ofNat 64 k = a + BitVec.ofNat 64 (k + 1) := by
  rw [Nat.add_comm k 1, BitVec.ofNat_add, ← BitVec.add_assoc]
  rfl

/-! ## Fetch of a byte and of the instruction stream (R96) -/

section Fetch

variable {s : State} {img l : List Byte} {op : Byte}

theorem State.fetch8_no_image (hi : s.image = none) : s.fetch8 = .error .invalidMemory := by
  rw [State.fetch8, hi]

theorem State.fetch8_past_end (hi : s.image = some img) (h : img.length ≤ s.pc.toNat) :
    s.fetch8 = .error (.outOfBounds s.pc) := by
  simp [State.fetch8, hi, h]

theorem State.fetch8_image (hi : s.image = some img) (h : s.pc.toNat < img.length) :
    s.fetch8 = .ok (img[s.pc.toNat], s.setPc (s.pc + 1)) := by
  simp [State.fetch8, hi, h]

theorem State.stream_image (hi : s.image = some img) : s.stream = img.drop s.pc.toNat := by
  rw [State.stream, hi, Option.getD_some]

theorem State.stream_cons (hi : s.image = some img) (h : s.pc.toNat < img.length) :
    s.stream = img[s.pc.toNat] :: img.drop (s.pc.toNat + 1) := by
  rw [State.stream_image hi, List.drop_eq_getElem_cons h]

/-- The opcode fetch answers the first byte of the stream. -/
theorem State.fetch8_of_stream (hs : s.stream = op :: l) : s.fetch8 = .ok (op, s.setPc (s.pc + 1)) := by
  cases hi : s.image with
  | none => simp [State.stream, hi] at hs
  | some img =>
    have h : s.pc.toNat < img.length := by
      have hlen := congrArg List.length (State.stream_image hi)
      rw [hs, List.length_cons, List.length_drop] at hlen
      omega
    rw [State.stream_cons hi h] at hs
    rw [State.fetch8_image hi h, (List.cons.inj hs).1]

/-- The pc moves past a byte of an image that fits the address space without wrapping (R33). -/
theorem State.pc_succ_toNat (hl : img.length < 2 ^ 64) (h : s.pc.toNat < img.length) :
    (s.pc + 1).toNat = s.pc.toNat + 1 :=
  BitVec.toNat_add_of_lt (y := 1) (show s.pc.toNat + 1 < 2 ^ 64 by omega)

/-! ## Fetch of a field (R97) -/

theorem bigEndian_append_one (bs : List Byte) (b : Byte) : bigEndian (bs ++ [b]) = 256 * bigEndian bs + b.toNat := by
  simp [bigEndian]

theorem bigEndian_lt (bs : List Byte) : bigEndian bs < 2 ^ (8 * bs.length) := by
  induction bs using List.reverseRecOn with
  | nil => decide
  | append_singleton bs b ih =>
    have hpow : 2 ^ (8 * (bs ++ [b]).length) = 256 * 2 ^ (8 * bs.length) := by
      rw [List.length_append, List.length_singleton, Nat.mul_add, Nat.pow_add, Nat.mul_comm]
    rw [bigEndian_append_one, hpow]
    have := b.isLt
    omega

/-- A field inside the image is the big-endian digits of its bytes below those fetched before, and the pc moves past
it. -/
theorem State.fetchBE_of_image (hl : img.length < 2 ^ 64) {n : Nat} (m : Nat) {s : State} (hi : s.image = some img)
    (h : s.pc.toNat + n ≤ img.length) :
    s.fetchBE n (BitVec.ofNat 64 m) =
      .ok (BitVec.ofNat 64 ((s.stream.take n).foldl (fun k b => 256 * k + b.toNat) m),
        s.setPc (s.pc + BitVec.ofNat 64 n)) := by
  induction n generalizing m s with
  | zero => simp [State.fetchBE, State.setPc]
  | succ n ih =>
    have hpc : s.pc.toNat < img.length := by omega
    have hsucc := State.pc_succ_toNat hl hpc
    have hrest : (s.setPc (s.pc + 1)).stream = img.drop (s.pc.toNat + 1) := by
      rw [State.stream_image (s := s.setPc (s.pc + 1)) hi, State.setPc_pc, hsucc]
    have hin : (s.setPc (s.pc + 1)).pc.toNat + n ≤ img.length := by
      rw [State.setPc_pc, hsucc]
      omega
    rw [State.fetchBE, State.fetch8_image hi hpc, ok_bind]
    dsimp only
    rw [ofNat_shiftLeft_or_byte, ih _ (s := s.setPc (s.pc + 1)) hi hin, hrest, State.stream_cons hi hpc,
      List.take_succ_cons, List.foldl_cons, State.setPc_pc, add_one_add_ofNat]
    rfl

/-- A field that the image ends in faults at the first byte at or past the image's end. -/
theorem State.fetchBE_past_end (hl : img.length < 2 ^ 64) {n : Nat} (hn : 0 < n) {acc : Word} {s : State}
    (hi : s.image = some img) (h : img.length < s.pc.toNat + n) :
    s.fetchBE n acc = .error (.outOfBounds (BitVec.ofNat 64 (max s.pc.toNat img.length))) := by
  induction n generalizing acc s with
  | zero => cases hn
  | succ n ih =>
    rw [State.fetchBE]
    rcases Nat.lt_or_ge s.pc.toNat img.length with hpc | hpc
    · have hsucc := State.pc_succ_toNat hl hpc
      have hmax : max (s.pc.toNat + 1) img.length = max s.pc.toNat img.length := by omega
      have hin : img.length < (s.setPc (s.pc + 1)).pc.toNat + n := by
        rw [State.setPc_pc, hsucc]
        omega
      rw [State.fetch8_image hi hpc, ok_bind]
      dsimp only
      rw [ih (by omega) (s := s.setPc (s.pc + 1)) hi hin, State.setPc_pc, hsucc, hmax]
    · rw [State.fetch8_past_end hi hpc, error_bind, Nat.max_eq_left hpc, BitVec.ofNat_toNat, BitVec.setWidth_eq]

/-! ## A step, by what its fetch answers (R99, R100, R102) -/

theorem step_of_fetch_run {i : Instr} {t : State} (hrun : s.status = .running) (h : s.fetch = .run i t) :
    step s = exec i t := by
  rw [step, hrun]
  dsimp only
  rw [h]

theorem step_of_fetch_done {t : State} (hrun : s.status = .running) (h : s.fetch = .done t) : step s = .next t := by
  rw [step, hrun]
  dsimp only
  rw [h]

theorem State.fetch_of_fetch8_error {c : FaultCause} (h : s.fetch8 = .error c) : s.fetch = .done (s.raise c) := by
  rw [State.fetch, h]

/-- The bytes that decode to an instruction begin with its opcode byte. -/
theorem State.fetch_of_instr {i : Instr} {rest : List Byte} (h : decode s.stream = .instr i rest) :
    s.fetch = .run i ((s.countOpcode (opcodeMap i.opcode)).setPc (s.pc + BitVec.ofNat 64 i.length)) := by
  have h8 := State.fetch8_of_stream (s := s) (decode_eq_instr_iff.1 h).1
  rw [State.fetch, h8]
  dsimp only
  rw [h]
  rfl

theorem State.fetch_of_unassigned {b : Byte} (hs : s.stream = op :: l) (h : decode s.stream = .unassigned b) :
    s.fetch = .done (((s.setPc (s.pc + 1)).countOpcode op).raise (.invalidOpcode b)) := by
  rw [State.fetch, State.fetch8_of_stream hs]
  dsimp only
  rw [h]
  rfl

theorem State.fetch_of_truncated (hs : s.stream = op :: l) (h : decode s.stream = .truncated) :
    s.fetch = .done (((s.setPc (s.pc + 1)).countOpcode op).raise
      (.outOfBounds (s.pc + BitVec.ofNat 64 s.stream.length))) := by
  rw [State.fetch, State.fetch8_of_stream hs]
  dsimp only
  rw [h]

/-- The stream ends where the image does. -/
theorem State.pc_add_stream_length (hi : s.image = some img) (h : s.pc.toNat < img.length) :
    s.pc + BitVec.ofNat 64 s.stream.length = BitVec.ofNat 64 img.length := by
  rw [State.stream_image hi, List.length_drop]
  apply BitVec.eq_of_toNat_eq
  rw [BitVec.toNat_add, BitVec.toNat_ofNat, BitVec.toNat_ofNat]
  omega

end Fetch

/-- Every instruction has a next state: its own, or the fault it takes (R103, R222). -/
theorem exec_next (i : Instr) (s : State) : ∃ t, exec i s = .next t := by
  cases i with
  | random d => exact s.drawn.complete_next _
  | nop | stop | jmp8 v | jmp16 v | jmp32 v | jmp64 v => exact ⟨_, rfl⟩
  | loadInt | storeInt | storeInt8 | storeInt16 | storeInt32 | storeInt64 => exact ⟨_, rfl⟩
  | _ => exact s.complete_next _

/-! ## Code bytes that fault, and the INFO table (R106 to R108, R202) -/

section Codes

variable {s : State}

theorem checkSize_error {n : Byte} (h : n.toNat = 0 ∨ 8 < n.toNat) : checkSize n = .error (.invalidSize n) := by
  rcases checkSize_cases n with ⟨h1, h8, -⟩ | ⟨-, he⟩
  · omega
  · exact he

theorem checkCmp_error {c : Byte} (h : 15 < c.toNat) : checkCmp c = .error (.invalidComparison c) := if_pos h

theorem condJump_invalid_code {c : Byte} (h : 15 < c.toNat) (a b : Byte) (target : Except FaultCause Word) :
    s.condJump c a b target = .error (.invalidComparison c) := by
  simp [State.condJump, checkCmp_error h]

/-- Code 15 divides by B, after both registers and the target were read (R176, D19). -/
theorem condJump_zero_divisor {a b : Byte} {x : Word} (ha : s.ReadsInt a x) (hb : s.ReadsInt b 0) (z : Word) :
    s.condJump 15 a b (.ok z) = .error .divideByZero := by
  have hpred : predicate 15 x 0 = .error .divideByZero := rfl
  rw [State.condJump, checkCmp_ok (by decide), State.getInt_ok_iff.2 ha, State.getInt_ok_iff.2 hb]
  simp only [ok_bind]
  rw [hpred, error_bind]

/-- Where JMP_LE_INT's target register reads, every conditional jump has a target. -/
theorem exec_condJump_of_target {i : Instr} {c a b t : Byte} {v8 : BitVec 8} {v16 : BitVec 16} {v32 : BitVec 32}
    {v64 : BitVec 64} {z : Word} (ht : s.ReadsInt t z)
    (hi : i ∈ [Instr.jmpLe8 c a b v8, .jmpLe16 c a b v16, .jmpLe32 c a b v32, .jmpLe64 c a b v64, .jmpLeInt c a b t]) :
    ∃ w, exec i s = s.complete (s.condJump c a b (.ok w)) := by
  simp only [List.mem_cons, List.not_mem_nil, or_false] at hi
  rcases hi with rfl | rfl | rfl | rfl | rfl
  case inr.inr.inr.inr => exact ⟨z, by rw [exec_jmpLeInt, State.getInt_ok_iff.2 ht]⟩
  all_goals exact ⟨_, rfl⟩

theorem State.infoEntry_invalid {k : Byte} (h : 3 < k.toNat) : s.infoEntry k = .error (.unimplementedInfoEntry k) := by
  unfold State.infoEntry
  split
  case h_5 => rfl
  all_goals omega

theorem exec_info_entry {k : Byte} {v : Word} (h : s.infoEntry k = .ok v) (d : Byte) :
    EndsWritingInt (exec (.info d k) s) s d v := by
  have hx : exec (.info d k) s = s.complete (s.putInt d v) := by simp [exec, execInfo, h]
  rw [hx]
  exact endsWritingInt_putInt s d v

end Codes

/-- A wide read faults as the lowest byte that cannot be read (R131). -/
theorem State.memReadBE_first_error {s : State} {n k : Nat} (hk : k < n) {a acc : Word} {c : FaultCause}
    (hbelow : ∀ j, j < k → ∃ b, s.memRead (a + BitVec.ofNat 64 j) = .ok b)
    (hc : s.memRead (a + BitVec.ofNat 64 k) = .error c) : s.memReadBE n a acc = .error c := by
  induction n generalizing k a acc with
  | zero => cases hk
  | succ n ih =>
    rw [State.memReadBE]
    cases k with
    | zero =>
      have hfirst : s.memRead a = .error c := by simpa using hc
      rw [hfirst, error_bind]
    | succ k =>
      obtain ⟨b, hb⟩ := hbelow 0 (Nat.succ_pos k)
      have hfirst : s.memRead a = .ok b := by simpa using hb
      have hrest : ∀ j, j < k → ∃ b, s.memRead (a + 1 + BitVec.ofNat 64 j) = .ok b := fun j hj =>
        add_one_add_ofNat a j ▸ hbelow (j + 1) (Nat.succ_lt_succ hj)
      rw [hfirst, ok_bind]
      exact ih (Nat.lt_of_succ_lt_succ hk) hrest (add_one_add_ofNat a k ▸ hc)

/-! ## The obligations about fetch, step and operand fields -/

/-- Settles O6. -/
theorem fetchByteReadsTheImage : Obligations.FetchByteReadsTheImage :=
  fun _ => ⟨State.fetch8_no_image, fun _ hi => ⟨State.fetch8_past_end hi, State.fetch8_image hi⟩⟩

/-- Settles O7, by induction on the number of bytes, after any bytes fetched before. -/
theorem fetchFieldIsBigEndian : Obligations.FetchFieldIsBigEndian := by
  intro s n hn
  refine ⟨fun hi => ?_,
    fun img hi hl => ⟨fun h => ⟨?_, State.fetchBE_of_image hl 0 hi h⟩, State.fetchBE_past_end hl hn hi⟩⟩
  · obtain ⟨n, rfl⟩ := Nat.exists_eq_add_one_of_ne_zero hn.ne'
    rw [State.fetchBE, State.fetch8_no_image hi, error_bind]
  · have hlen : (s.stream.take n).length = n := by
      rw [State.stream_image hi, List.length_take, List.length_drop]
      omega
    have hlt := bigEndian_lt (s.stream.take n)
    rwa [hlen] at hlt

/-- Settles O8: the fetch runs the decoded instruction in the counted state. -/
theorem stepRunsTheDecodedInstruction : Obligations.StepRunsTheDecodedInstruction := by
  intro s img i rest hrun hi h
  rw [← State.stream_image hi] at h
  exact step_of_fetch_run hrun (State.fetch_of_instr h)

/-- Settles O9. -/
theorem opcodeFetchFaultCountsNothing : Obligations.OpcodeFetchFaultCountsNothing := by
  intro s hrun
  refine ⟨fun hi => ?_, fun img hi h => ?_⟩
  · exact step_of_fetch_done hrun (State.fetch_of_fetch8_error (State.fetch8_no_image hi))
  · exact step_of_fetch_done hrun (State.fetch_of_fetch8_error (State.fetch8_past_end hi h))

/-- Settles O10: the fault is at the end of the stream, which is the end of the image. -/
theorem truncatedInstructionFaultsAtTheEnd : Obligations.TruncatedInstructionFaultsAtTheEnd := by
  intro s img h hrun hi _ ht
  rw [← State.stream_image hi] at ht
  have hfetch := State.fetch_of_truncated (State.stream_cons hi h) ht
  rw [State.pc_add_stream_length hi h] at hfetch
  exact ⟨_, step_of_fetch_done hrun hfetch, rfl, rfl, rfl, rfl, rfl, rfl, rfl⟩

/-- Settles O11. -/
theorem unassignedOpcodeFaults : Obligations.UnassignedOpcodeFaults := by
  refine ⟨fun s img h hrun hi hop => ?_, fun _ _ => rfl⟩
  have hs := State.stream_cons hi h
  exact step_of_fetch_done hrun (State.fetch_of_unassigned hs (hs ▸ decode_unassigned hop _))

/-- Settles O13: the fetch ends the step or runs an instruction, and every instruction has a next state. -/
theorem stepAlwaysMovesWhileRunning : Obligations.StepAlwaysMovesWhileRunning := by
  refine ⟨fun s hrun => ?_, exec_next⟩
  cases hf : s.fetch with
  | run i t => exact step_of_fetch_run hrun hf ▸ exec_next i t
  | done t => exact ⟨t, step_of_fetch_done hrun hf⟩

/-- Settles O36: an immediate is its field, zero-extended. -/
theorem immediateLoadsZeroExtend : Obligations.ImmediateLoadsZeroExtend := by
  intro s d v8 v16 v32 v64
  simp only [BitVec.ofNat_toNat]
  refine ⟨endsWritingInt_putInt s d _, endsWritingInt_putInt s d _, endsWritingInt_putInt s d _, ?_⟩
  have h64 : immediate v64 = v64 := BitVec.setWidth_eq v64
  exact h64 ▸ endsWritingInt_putInt s d (immediate v64)

/-- Settles O38: the size is checked first, and the bytes are read in rising address order before the write. -/
theorem loadIntMemFaults : Obligations.LoadIntMemFaults := by
  refine ⟨fun s d a n h => ?_, fun s d a n addr k c hr h8 hk hbelow hc => ?_⟩
  · simp [exec, execLoadIntMem, checkSize_error h]
  · have hsize := checkSize_ok (n := n) (by omega) h8
    simp [exec, execLoadIntMem, hsize, State.getInt_ok_iff.2 hr, State.memReadBE_first_error hk hbelow hc]

/-- Settles O50: the code is checked first, and divides only once its target was read. -/
theorem comparisonCodeFaults : Obligations.ComparisonCodeFaults := by
  intro s c a b t v8 v16 v32 v64
  refine ⟨fun hc i hi => ?_, fun x ha hb z ht i hi => ?_⟩
  · obtain ⟨target, hx⟩ := exec_condJump hi s
    rw [hx, condJump_invalid_code hc, State.complete_error]
  · obtain ⟨w, hx⟩ := exec_condJump_of_target ht hi
    rw [hx, condJump_zero_divisor ha hb, State.complete_error]

/-- Settles O53: an entry of the table is written; any other code faults before the destination is looked at. -/
theorem infoWritesTheEntry : Obligations.InfoWritesTheEntry := by
  refine fun s d => ⟨exec_info_entry rfl d, exec_info_entry rfl d, exec_info_entry rfl d, fun img hi => ?_,
    fun k hk => ?_⟩
  · have hsize : s.imageSize = BitVec.ofNat 64 img.length := by
      rw [State.imageSize, State.imageLength, hi, Option.getD_some]
    exact hsize ▸ exec_info_entry (k := 3) rfl d
  · simp [exec, execInfo, State.infoEntry_invalid hk]

end Sys2Proof.Machine
end

section
/-! PROOFS of the statements about the integer instructions (41_integer.md): a handler that could read its sources, the
modular results, the decimal numeral, then each statement from them. -/

namespace Sys2Proof.Machine

/-! ## Arithmetic handlers whose sources read integers (R132 to R138) -/

section Arithmetic

variable {s : State} {a b : Byte} {x y : Word}

theorem endsWritingInt_arith1 (ha : s.ReadsInt a x) (f : Word → Word) :
    EndsWritingInt (s.complete (s.arith1 a f)) s a (f x) := by
  have hput : s.arith1 a f = s.putInt a (f x) := by simp [State.arith1, State.getInt_ok_iff.2 ha]
  exact hput ▸ endsWritingInt_putInt s a (f x)

theorem arith2_of_reads (ha : s.ReadsInt a x) (hb : s.ReadsInt b y) (d : Byte)
    (f : Word → Word → Except FaultCause Word) : s.arith2 d a b f = f x y >>= s.putInt d := by
  simp [State.arith2, State.getInt_ok_iff.2 ha, State.getInt_ok_iff.2 hb]

theorem endsWritingInt_arith2 (ha : s.ReadsInt a x) (hb : s.ReadsInt b y) (d : Byte)
    {f : Word → Word → Except FaultCause Word} {v : Word} (hf : f x y = .ok v) :
    EndsWritingInt (s.complete (s.arith2 d a b f)) s d v := by
  rw [arith2_of_reads ha hb, hf, ok_bind]
  exact endsWritingInt_putInt s d v

/-- An operation that faults does so before the destination is looked at (R137, R138). -/
theorem complete_arith2_error (ha : s.ReadsInt a x) (hb : s.ReadsInt b y) (d : Byte)
    {f : Word → Word → Except FaultCause Word} {c : FaultCause} (hf : f x y = .error c) :
    s.complete (s.arith2 d a b f) = .next (s.raise c) := by
  rw [arith2_of_reads ha hb, hf, error_bind, State.complete_error]

end Arithmetic

/-! ## The word operations are the exact ones modulo 2^64 (R140) -/

theorem ofNat_toNat_add (x y : Word) : BitVec.ofNat 64 (x.toNat + y.toNat) = x + y := by
  simp [BitVec.ofNat_add]

theorem ofNat_toNat_mul (x y : Word) : BitVec.ofNat 64 (x.toNat * y.toNat) = x * y := by
  simp [BitVec.ofNat_mul]

theorem ofInt_toNat_sub (x y : Word) : BitVec.ofInt 64 ((x.toNat : Int) - y.toNat) = x - y := by
  rw [Int.sub_eq_add_neg, BitVec.ofInt_add, BitVec.ofInt_neg, BitVec.sub_eq_add_neg]
  simp

/-! ## The decimal numeral (R141): the digits of the value in base 10, the lowest first in `Nat.digits` -/

/-- The ASCII byte of a digit. -/
def asciiDigit (d : Nat) : Byte := BitVec.ofNat 8 (0x30 + d)

theorem asciiDigit_toNat {d : Nat} (h : d < 10) : (asciiDigit d).toNat = 0x30 + d := by
  rw [asciiDigit, BitVec.toNat_ofNat]
  omega

/-- Each step puts the lowest digit of the rest in front, so the digits end up most significant first. -/
theorem decimalDigits_eq {fuel n : Nat} (hn : n ≠ 0) (hlt : n < 10 ^ fuel) (acc : List Byte) :
    decimalDigits fuel n acc = (Nat.digits 10 n).reverse.map asciiDigit ++ acc := by
  induction fuel generalizing n acc with
  | zero => omega
  | succ fuel ih =>
    have hdigits : Nat.digits 10 n = n % 10 :: Nat.digits 10 (n / 10) :=
      Nat.digits_eq_cons_digits_div (by decide) hn
    by_cases hlast : n / 10 = 0
    · simp [decimalDigits, hdigits, hlast, asciiDigit]
    · have hrest : n / 10 < 10 ^ fuel := Nat.div_lt_of_lt_mul (by rwa [pow_succ'] at hlt)
      simp [decimalDigits, hdigits, hlast, ih hlast hrest, asciiDigit]

theorem decimal_zero : decimal 0 = [0x30] := by decide

theorem decimal_of_ne_zero {v : Word} (h0 : v.toNat ≠ 0) :
    decimal v = (Nat.digits 10 v.toNat).reverse.map asciiDigit := by
  have h20 : v.toNat < 10 ^ 20 := v.isLt.trans (by decide)
  rw [decimal, decimalDigits_eq h0 h20, List.append_nil]

/-- The first byte of a numeral is that of the number's highest digit. -/
theorem head?_asciiDigits_ne_zero {n : Nat} (hn : n ≠ 0) :
    ((Nat.digits 10 n).reverse.map asciiDigit).head? ≠ some 0x30 := by
  have hne : Nat.digits 10 n ≠ [] := Nat.digits_ne_nil_iff_ne_zero.2 hn
  have hlt : (Nat.digits 10 n).getLast hne < 10 := Nat.digits_lt_base (by decide) (List.getLast_mem hne)
  rw [List.head?_map, List.head?_reverse, List.getLast?_eq_some_getLast hne, Option.map_some]
  intro hhead
  have hval := congrArg BitVec.toNat (Option.some_inj.1 hhead)
  rw [asciiDigit_toNat hlt] at hval
  exact Nat.getLast_digit_ne_zero 10 hn (Nat.add_left_cancel hval)

/-- The value of a numeral, read in base 10, is the number whose digits it lists. -/
theorem foldl_asciiDigit {ds : List Nat} (h : ∀ d ∈ ds, d < 10) :
    (ds.reverse.map asciiDigit).foldl (fun n b => 10 * n + (b.toNat - 0x30)) 0 = Nat.ofDigits 10 ds := by
  induction ds with
  | nil => rfl
  | cons d ds ih =>
    obtain ⟨hd, hds⟩ := List.forall_mem_cons.1 h
    rw [List.reverse_cons, List.map_append, List.foldl_append, ih hds]
    simp [asciiDigit_toNat hd, Nat.ofDigits_cons, Nat.add_comm]

/-- Settles O45: `decimal` lists the digits that Mathlib's `Nat.digits` gives, whose laws it then inherits. -/
theorem decimalIsTheNumeral : Obligations.DecimalIsTheNumeral := by
  intro v
  by_cases hv : v = 0
  · rw [hv, decimal_zero]
    decide
  have h0 : v.toNat ≠ 0 := fun h => hv (BitVec.eq_of_toNat_eq h)
  have hlt : ∀ d ∈ Nat.digits 10 v.toNat, d < 10 := fun d => Nat.digits_lt_base (by decide)
  have hlen : (Nat.digits 10 v.toNat).length ≤ 20 :=
    (Nat.digits_length_le_iff (by decide) _).2 (v.isLt.trans (by decide))
  rw [decimal_of_ne_zero h0]
  refine ⟨?_, ?_, fun c hc => ?_, fun h => absurd h hv, fun _ => head?_asciiDigits_ne_zero h0, ?_⟩
  · simpa [Nat.one_le_iff_ne_zero] using Nat.digits_ne_nil_iff_ne_zero.2 h0
  · simpa using hlen
  · obtain ⟨d, hd, rfl⟩ := List.mem_map.1 hc
    have hd10 := hlt d (List.mem_reverse.1 hd)
    rw [asciiDigit_toNat hd10]
    omega
  · rw [foldl_asciiDigit hlt, Nat.ofDigits_digits]

/-- Settles O39. -/
theorem incDecWrap : Obligations.IncDecWrap := by
  intro s r v hr
  have hinc : BitVec.ofNat 64 (v.toNat + 1) = v + 1 := ofNat_toNat_add v 1
  have hdec : BitVec.ofInt 64 ((v.toNat : Int) - 1) = v - 1 := ofInt_toNat_sub v 1
  rw [hinc, hdec]
  exact ⟨endsWritingInt_arith1 hr (· + 1), endsWritingInt_arith1 hr (· - 1)⟩

/-- Settles O40. -/
theorem addSubMulWrap : Obligations.AddSubMulWrap := by
  intro s d a b x y ha hb
  rw [ofNat_toNat_add, ofInt_toNat_sub, ofNat_toNat_mul]
  exact ⟨endsWritingInt_arith2 ha hb d rfl, endsWritingInt_arith2 ha hb d rfl, endsWritingInt_arith2 ha hb d rfl⟩

/-- Settles O41: the divisor is tested after both sources were read and before the destination is looked at. -/
theorem divModOrDivideByZero : Obligations.DivModOrDivideByZero := by
  intro s d a b x y ha hb
  refine ⟨fun hy => ?_, fun hy => ?_⟩
  · rw [← BitVec.udiv_def, ← BitVec.umod_def]
    exact ⟨endsWritingInt_arith2 ha hb d (if_neg hy), endsWritingInt_arith2 ha hb d (if_neg hy)⟩
  · exact ⟨complete_arith2_error ha hb d (if_pos hy), complete_arith2_error ha hb d (if_pos hy)⟩

/-! ## Slots with no handler, and print -/

/-- Under the strict variant this spec fixes, a slot with no handler raises InvalidOpcode (R4, R95). -/
theorem State.unbound_unboundPolicy (s : State) (op : Byte) :
    s.unbound unboundPolicy op = s.raise (.invalidOpcode op) := rfl

/-- Settles O43: each handler is the unbound slot of its own opcode byte. -/
theorem unboundMnemonicsRaiseInvalidOpcode : Obligations.UnboundMnemonicsRaiseInvalidOpcode := by
  intro s
  have hslot : ∀ o : Opcode, (.next (s.unbound unboundPolicy (opcodeMap o)) : StepResult) =
      .next (s.raise (.invalidOpcode (opcodeMap o))) :=
    fun o => congrArg _ (s.unbound_unboundPolicy (opcodeMap o))
  exact ⟨hslot .loadInt, hslot .storeInt, hslot .storeInt8, hslot .storeInt16, hslot .storeInt32, hslot .storeInt64⟩

section Print

variable {s : State} {r : Byte}

theorem exec_printInt {v : Word} (h : s.ReadsInt r v) : exec (.printInt r) s = .next (s.emit (decimal v)) := by
  simp [exec, execPrintInt, State.getInt_ok_iff.2 h]

theorem exec_printStr {bs : List Byte} (h : s.getStr r = .ok bs) : exec (.printStr r) s = .next (s.emit bs) := by
  simp [exec, execPrintStr, h]

theorem exec_printStr_error {c : FaultCause} (h : s.getStr r = .error c) :
    exec (.printStr r) s = .next (s.raise c) := by
  simp [exec, execPrintStr, h]

end Print

/-- Settles O44: a print emits what the typed accessor of its register answers, or takes that accessor's fault. -/
theorem printAppendsToTheOutput : Obligations.PrintAppendsToTheOutput := by
  refine ⟨fun s r v h => exec_printInt h, fun s r => ⟨fun h => ⟨fun bs hbs => ?_, fun hbs => ?_⟩, ?_, fun h hp => ?_⟩⟩
  · exact exec_printStr (State.getStr_reg h hbs)
  · exact exec_printStr_error (State.getStr_reg_mismatch h hbs)
  · rintro rfl
    exact exec_printStr_error s.getStr_pcIndex
  · exact exec_printStr_error (State.getStr_invalid h hp)

end Sys2Proof.Machine
end

section
/-! PROOFS of the statements about strings (42_string.md): the string write, form by form of the destination byte. -/

namespace Sys2Proof.Machine

/-- A handler that ends in `putStr` ends writing that byte string (R29). -/
theorem endsWritingValue_putStr (s : State) (d : Byte) (bs : List Byte) :
    EndsWritingValue (s.complete (s.putStr d bs)) s d (.bytes bs) := by
  refine ⟨fun h => ?_, fun hp => ?_, fun h hp => ?_⟩
  · rw [State.putStr_reg h]; rfl
  · rw [hp, State.putStr_pcIndex]; rfl
  · rw [State.putStr_invalid h hp]; rfl

/-- Settles O46: the handlers of both instructions are the string write at their destination. -/
theorem stringLoadsWriteBytes : Obligations.StringLoadsWriteBytes :=
  fun s d str => ⟨endsWritingValue_putStr s d str, endsWritingValue_putStr s d str⟩

end Sys2Proof.Machine
end

section
/-! PROOFS of the statements about jumps (43_jump.md): the target of a displacement, the predicate table row by row, a
conditional jump whose operands read, then each statement from them. -/

namespace Sys2Proof.Machine

/-- A relative target is the exact signed sum modulo 2^64 (R105, R170). -/
theorem State.relative_eq_jumpTarget {w : Nat} (s : State) (disp : BitVec w) : s.relative disp = s.jumpTarget disp := by
  have hpc : BitVec.ofInt 64 (s.pc.toNat : Int) = s.pc := by simp
  rw [State.relative, State.jumpTarget, BitVec.ofInt_add, hpc, displacement, BitVec.signExtend]

theorem exec_jmpInt {s : State} {r : Byte} {t : Word} (h : s.ReadsInt r t) :
    exec (.jmpInt r) s = .next (s.setPc t) := by
  simp [exec, execJmpInt, State.getInt_ok_iff.2 h]

/-! ## The predicate table (R176) -/

section Predicate

variable {c : Byte} {a b : Word}

theorem predicate_invalid_code (h : 15 < c.toNat) (a b : Word) : predicate c a b = .error (.invalidComparison c) := by
  unfold predicate
  split
  case h_17 => rfl
  all_goals omega

theorem predicate_ok_code {taken : Bool} (h : predicate c a b = .ok taken) : c.toNat ≤ 15 := by
  by_contra hc
  rw [predicate_invalid_code (Nat.lt_of_not_le hc)] at h
  cases h

theorem predicate_15_zero (a : Word) : predicate 15 a 0 = .error .divideByZero := rfl

/-- Code 15 is the truth value of the unsigned remainder (R176, D19). -/
theorem predicate_15_of_ne_zero (a : Word) (hb : b ≠ 0) :
    predicate 15 a b = .ok (decide (a.toNat % b.toNat ≠ 0)) := by
  have hrow : predicate 15 a b = .ok (decide (a % b ≠ 0)) := if_neg hb
  have hmod : a % b ≠ 0 ↔ a.toNat % b.toNat ≠ 0 := by simp [BitVec.toNat_eq]
  rw [hrow, decide_eq_decide.2 hmod]

end Predicate

/-! ## A conditional jump whose operands read and whose code has a predicate value (R177 to R181) -/

section CondJump

variable {s : State} {c a b : Byte} {x y : Word} {taken : Bool}

theorem condJump_of_predicate (ha : s.ReadsInt a x) (hb : s.ReadsInt b y) (hp : predicate c x y = .ok taken) (t : Word) :
    s.condJump c a b (.ok t) = .ok (if taken then s.setPc t else s) := by
  simp [State.condJump, checkCmp_ok (predicate_ok_code hp), State.getInt_ok_iff.2 ha, State.getInt_ok_iff.2 hb, hp]

theorem complete_condJump_relative (ha : s.ReadsInt a x) (hb : s.ReadsInt b y) (hp : predicate c x y = .ok taken)
    {w : Nat} (disp : BitVec w) :
    s.complete (s.condJump c a b (.ok (s.relative disp))) =
      .next (if taken then s.setPc (s.jumpTarget disp) else s) := by
  rw [condJump_of_predicate ha hb hp, State.complete_ok, State.relative_eq_jumpTarget]

end CondJump

/-! ## The obligations -/

/-- Settles O47: each relative handler sets the pc to its relative target, whatever the width. -/
theorem jumpsSetThePc : Obligations.JumpsSetThePc := by
  refine ⟨fun s v8 v16 v32 v64 => ?_, fun s r t h => exec_jmpInt h⟩
  have hjump : ∀ {w : Nat} (disp : BitVec w),
      (.next (s.setPc (s.relative disp)) : StepResult) = .next (s.setPc (s.jumpTarget disp)) :=
    fun disp => by rw [State.relative_eq_jumpTarget]
  exact ⟨hjump v8, hjump v16, hjump v32, hjump v64⟩

/-- Settles O48: the four handlers are one conditional jump to the relative target of their width. -/
theorem conditionalJumpsFollowThePredicate : Obligations.ConditionalJumpsFollowThePredicate := by
  intro s c a b x y taken ha hb hp v8 v16 v32 v64
  have hjump {w : Nat} (disp : BitVec w) := complete_condJump_relative ha hb hp disp
  exact ⟨hjump v8, hjump v16, hjump v32, hjump v64⟩

/-- Settles O49: the target register reads, so the conditional jump has its target. -/
theorem conditionalRegisterJump : Obligations.ConditionalRegisterJump := by
  intro s c a b t x y z taken ha hb ht hp
  rw [exec_jmpLeInt, State.getInt_ok_iff.2 ht, condJump_of_predicate ha hb hp, State.complete_ok]
  rfl

/-- Settles O51: the rows of codes 0 to 14 are the table's own, up to how a Boolean negation is written. -/
theorem predicateTable : Obligations.PredicateTable := by
  intro a b
  have hne (x y : Word) : decide (x ≠ y) = (x != y) := decide_not
  have hboth : decide (a ≠ 0 ∧ b ≠ 0) = (a != 0 && b != 0) := by rw [Bool.decide_and, hne, hne]
  have heither : decide (a ≠ 0 ∨ b ≠ 0) = (a != 0 || b != 0) := by rw [Bool.decide_or, hne, hne]
  refine ⟨rfl, rfl, rfl, rfl, rfl, congrArg _ (hne a b), rfl, rfl, congrArg _ hboth, congrArg _ heither, rfl, rfl, rfl,
    rfl, congrArg _ (hne (a ^^^ b) 0), ?_, predicate_15_of_ne_zero a, fun c hc => predicate_invalid_code hc a b⟩
  rintro rfl
  exact predicate_15_zero a

end Sys2Proof.Machine
end

section
/-! PROOFS of the statements about NOP and STOP (45_misc.md): one equation per handler, then the statement. -/

namespace Sys2Proof.Machine

/-- NOP has no effect beyond the fetch of its opcode (R211). -/
theorem exec_nop (s : State) : exec .nop s = .next s := rfl

/-- STOP is `halt` and nothing more (R212). -/
theorem exec_stop (s : State) : exec .stop s = .next s.halt := rfl

/-- Settles O55: STOP's `halt` is the update of `status` alone. -/
theorem nopAndStop : Obligations.NopAndStop := by
  intro s
  have hhalt : s.halt = { s with status := .halted } := rfl
  exact ⟨exec_nop s, hhalt ▸ exec_stop s⟩

end Sys2Proof.Machine
end

section
/-! PROOFS of the statements about faults (60_exceptions.md): what taking a fault records, what a faulting step leaves,
and the fault table of R226, composed along each handler's reads, checks and write. -/

namespace Sys2Proof.Machine

/-- Settles O29: the record, then the frame of `raise` field by field. -/
theorem raiseRecordsTheFault : Obligations.RaiseRecordsTheFault :=
  fun s c => ⟨s.raise_status c, s.raise_regs c, s.raise_image c, s.raise_segments c, s.raise_cursor c, s.raise_tick c,
    s.raise_curOp c, s.raise_debug c, s.raise_out c, s.raise_drawCount c, s.raise_stepped c⟩

/-! ## A faulting step is precise (R224, R225, R228) -/

/-- A handler that ends in a fault raised it from its start state, or from that state with one draw taken. -/
theorem Effect.raise_of_faulted {i : Instr} {s t : State} {f : FaultRecord} (h : Effect i s t)
    (hs : s.status = .running) (ht : t.status = .faulted f) : ∃ c, t = s.raise c ∨ t = s.drawn.raise c := by
  cases h with
  | fault c => exact ⟨c, .inl rfl⟩
  | drawFault d c => exact ⟨c, .inr rfl⟩
  | halt => cases ht
  | none | reg | pc | emit | heap | drawReg | drawPc => exact absurd (hs.symm.trans ht) (by simp)

/-- Settles O25: at the opcode fetch, after it, or in a handler, the fault is raised from a state that differs from the
one before the step in the pc, `cur_op` and the counters only. -/
theorem faultsArePrecise : Obligations.FaultsArePrecise := by
  intro s t f h ht
  obtain ⟨hrun, ⟨c, -, rfl⟩ | ⟨op, u, c, -, rfl⟩ | ⟨op, u, i, rest, v, -, -, he⟩⟩ := step_effect h
  · cases ht
    exact ⟨rfl, rfl, rfl, rfl, rfl, rfl, rfl⟩
  · cases ht
    exact ⟨rfl, rfl, rfl, rfl, rfl, rfl, rfl⟩
  · obtain ⟨c, rfl | rfl⟩ := he.raise_of_faulted hrun ht <;> cases ht <;>
      exact ⟨rfl, rfl, rfl, rfl, rfl, rfl, rfl⟩

/-! ## The faults of a computation, composed -/

/-- The computation answers a value with the property P, or raises a fault whose code (R221) is listed. -/
def EndsWithin {α : Type} (codes : List Nat) (P : α → Prop) : Except FaultCause α → Prop
  | .ok a => P a
  | .error c => c.code ∈ codes

/-- The state did not end in a fault (R255). -/
def State.Unfaulted (s : State) : Prop := s.hasFaulted = false

theorem State.unfaulted_of_running {s : State} (h : s.status = .running) : s.Unfaulted := by
  simp [State.Unfaulted, State.hasFaulted, h]

/-- Every fault the outcome ends in has a listed code. -/
def FaultsWithin (codes : List Nat) (o : StepResult) : Prop :=
  ∀ t f, o = .next t → t.status = .faulted f → f.cause.code ∈ codes

section Compose

variable {α β : Type} {cs ds : List Nat} {P : α → Prop} {Q : β → Prop} {x : Except FaultCause α}

theorem EndsWithin.mono (h : EndsWithin cs P x) (hsub : cs ⊆ ds) : EndsWithin ds P x := by
  cases x with
  | error c => exact hsub h
  | ok a => exact h

/-- A sequence raises what its two parts raise, the second after the first ended well. -/
theorem EndsWithin.bind {f : α → Except FaultCause β} (hx : EndsWithin cs P x)
    (hf : ∀ a, P a → EndsWithin ds Q (f a)) : EndsWithin (cs ++ ds) Q (x >>= f) := by
  cases x with
  | error c => exact List.mem_append_left ds hx
  | ok a => exact (hf a hx).mono (List.subset_append_right cs ds)

/-- What follows without a check raises nothing more. -/
theorem EndsWithin.map {f : α → β} (hx : EndsWithin cs P x) (hf : ∀ a, P a → Q (f a)) :
    EndsWithin cs Q (x >>= fun a => .ok (f a)) := by
  cases x with
  | error c => exact hx
  | ok a => exact hf a hx

/-- A computation of which only the faults matter. -/
theorem EndsWithin.of_error (h : ∀ c, x = .error c → c.code ∈ cs) : EndsWithin cs (fun _ => True) x := by
  cases x with
  | error c => exact h c rfl
  | ok a => trivial

/-- A handler that answers an unfaulted state or raises a listed fault has only listed faults as outcomes. -/
theorem FaultsWithin.of_complete {r : Except FaultCause State} {s : State} (h : EndsWithin cs State.Unfaulted r)
    (hsub : cs ⊆ ds) : FaultsWithin ds (s.complete r) := by
  intro t f ht hf
  rcases State.complete_cases ht with rfl | ⟨c, rfl, rfl⟩
  · have hno : t.hasFaulted = false := h
    simp [State.hasFaulted, hf] at hno
  · cases hf
    exact hsub h

/-- A handler that checks nothing and ends unfaulted. -/
theorem FaultsWithin.of_unfaulted {t : State} (h : t.Unfaulted) : FaultsWithin ds (.next t) :=
  .of_complete (r := .ok t) (s := t) (cs := []) h (List.nil_subset ds)

end Compose

/-! ## The faults of the shared operations, one lemma each -/

section Operations

variable (s : State)

theorem getInt_endsWithin (i : Byte) : EndsWithin [3, 4] (fun _ => True) (s.getInt i) := by
  refine .of_error fun c hc => ?_
  rcases State.getInt_error_iff.1 hc with ⟨-, -, rfl⟩ | ⟨-, -, rfl⟩ <;> simp [FaultCause.code]

theorem getStr_endsWithin (i : Byte) : EndsWithin [3, 4] (fun _ => True) (s.getStr i) := by
  rcases s.getStr_cases i with ⟨_, bs, -, he⟩ | ⟨_, -, he⟩ | ⟨-, he⟩ | ⟨-, -, he⟩ <;>
    simp [he, EndsWithin, FaultCause.code]

theorem getAny_endsWithin (i : Byte) : EndsWithin [3, 4] (fun _ => True) (s.getAny i) := by
  rcases s.getAny_cases i with ⟨_, he⟩ | ⟨-, he⟩ | ⟨-, -, he⟩ <;> simp [he, EndsWithin, FaultCause.code]

theorem infoEntry_endsWithin (k : Byte) : EndsWithin [10] (fun _ => True) (s.infoEntry k) := by
  refine .of_error fun c hc => ?_
  rw [State.infoEntry_error hc]
  exact List.mem_singleton.2 rfl

variable {s}

theorem putInt_endsWithin (hs : s.Unfaulted) (i : Byte) (v : Word) : EndsWithin [3] State.Unfaulted (s.putInt i v) := by
  rcases s.putInt_cases i v with ⟨h, he⟩ | ⟨-, he⟩ | ⟨-, -, he⟩ <;> rw [he]
  · exact hs
  · exact hs
  · exact List.mem_singleton.2 rfl

theorem putStr_endsWithin (hs : s.Unfaulted) (i : Byte) (bs : List Byte) :
    EndsWithin [3, 4] State.Unfaulted (s.putStr i bs) := by
  rcases s.putStr_cases i bs with ⟨h, he⟩ | ⟨-, he⟩ | ⟨-, -, he⟩ <;> rw [he]
  · exact hs
  · exact List.mem_pair.2 (.inr rfl)
  · exact List.mem_pair.2 (.inl rfl)

theorem putAny_endsWithin (hs : s.Unfaulted) (i : Byte) (v : Value) :
    EndsWithin [3, 4] State.Unfaulted (s.putAny i v) := by
  rcases s.putAny_cases i v with ⟨h, he⟩ | ⟨-, he⟩ | ⟨-, -, he⟩ <;> rw [he]
  · exact hs
  · exact List.mem_pair.2 (.inr rfl)
  · exact List.mem_pair.2 (.inl rfl)

theorem checkSize_endsWithin (n : Byte) : EndsWithin [6] (fun _ => True) (checkSize n) := by
  rcases checkSize_cases n with ⟨-, -, he⟩ | ⟨-, he⟩ <;> simp [he, EndsWithin, FaultCause.code]

/-- What the check answers is that the code has a row in the predicate table (R106). -/
theorem checkCmp_endsWithin (c : Byte) : EndsWithin [11] (fun _ => c.toNat ≤ 15) (checkCmp c) := by
  rcases checkCmp_cases c with ⟨hc, he⟩ | ⟨-, he⟩ <;> rw [he]
  · exact hc
  · exact List.mem_singleton.2 rfl

theorem predicate_endsWithin {c : Byte} (hc : c.toNat ≤ 15) (a b : Word) :
    EndsWithin [7] (fun _ => True) (predicate c a b) := by
  refine .of_error fun e he => ?_
  obtain ⟨-, -, rfl⟩ := predicate_error hc he
  exact List.mem_singleton.2 rfl

/-- With an image, the only fault of a wide read is an address no region owns (R61, R62). -/
theorem memReadBE_endsWithin (hi : s.image ≠ none) (n : Nat) (a acc : Word) :
    EndsWithin [9] (fun _ => True) (s.memReadBE n a acc) := by
  refine .of_error fun c hc => ?_
  obtain ⟨b, hb⟩ := State.memReadBE_error hc
  rcases State.memRead_error hb with ⟨himg, -⟩ | rfl
  · exact absurd himg hi
  · exact List.mem_singleton.2 rfl

theorem allocate_endsWithin (hs : s.Unfaulted) (n : Word) : EndsWithin [12] State.Unfaulted (s.allocate n) := by
  rw [State.allocate]
  rcases s.allocateWith_cases Config.heapCapacity n with ⟨-, -, he⟩ | ⟨-, he⟩ <;> rw [he]
  · exact hs
  · exact List.mem_singleton.2 rfl

theorem arith1_endsWithin (hs : s.Unfaulted) (r : Byte) (f : Word → Word) :
    EndsWithin [3, 4, 3] State.Unfaulted (s.arith1 r f) :=
  (getInt_endsWithin s r).bind fun _ _ => putInt_endsWithin hs r _

/-- Two sources, the operation with its own faults, and the write (R134 to R138). -/
theorem arith2_endsWithin {codes : List Nat} {f : Word → Word → Except FaultCause Word} (hs : s.Unfaulted)
    (hf : ∀ x y, EndsWithin codes (fun _ => True) (f x y)) (d a b : Byte) :
    EndsWithin ([3, 4] ++ ([3, 4] ++ (codes ++ [3]))) State.Unfaulted (s.arith2 d a b f) :=
  (getInt_endsWithin s a).bind fun x _ => (getInt_endsWithin s b).bind fun y _ => (hf x y).bind fun _ _ =>
    putInt_endsWithin hs d _

/-- DIV_INT and MOD_INT fault on a zero divisor alone (R137, R138). -/
theorem zeroDivisor_endsWithin (y v : Word) :
    EndsWithin [7] (fun _ => True) (if y = 0 then .error .divideByZero else .ok v) := by
  split
  · exact List.mem_singleton.2 rfl
  · trivial

/-- A conditional jump: the code, the two registers, the target with its own faults, the predicate (R177 to R181). -/
theorem condJump_endsWithin {codes : List Nat} {target : Except FaultCause Word} (hs : s.Unfaulted)
    (ht : EndsWithin codes (fun _ => True) target) (c a b : Byte) :
    EndsWithin ([11] ++ ([3, 4] ++ ([3, 4] ++ (codes ++ [7])))) State.Unfaulted (s.condJump c a b target) :=
  (checkCmp_endsWithin c).bind fun _ hc => (getInt_endsWithin s a).bind fun x _ =>
    (getInt_endsWithin s b).bind fun y _ => ht.bind fun _ _ => (predicate_endsWithin hc x y).map fun taken _ => by
      cases taken <;> exact hs

end Operations

/-! ## The fault table (R226) -/

/-- The handler of each instruction has only the faults of its row, in a state with an image. -/
theorem exec_faultsWithin {s : State} (hs : s.Unfaulted) (hi : s.image ≠ none) (i : Instr) :
    FaultsWithin i.faultCodes (exec i s) := by
  have hok (x : Word) : EndsWithin [] (fun _ => True) (.ok x : Except FaultCause Word) := trivial
  cases i with
  | nop => exact .of_unfaulted hs
  | stop => exact .of_unfaulted (t := s.halt) rfl
  | jmp8 v | jmp16 v | jmp32 v | jmp64 v => exact .of_unfaulted (t := s.setPc _) hs
  | loadInt | storeInt | storeInt8 | storeInt16 | storeInt32 | storeInt64 =>
    exact .of_complete (s := s) (r := .error _) (List.mem_singleton.2 rfl) (List.Subset.refl [5])
  | loadInt8 d v | loadInt16 d v | loadInt32 d v | loadInt64 d v =>
    exact .of_complete (putInt_endsWithin hs d _) (List.Subset.refl _)
  | loadIntMem d a n =>
    exact .of_complete ((checkSize_endsWithin n).bind fun k _ => (getInt_endsWithin s a).bind fun addr _ =>
      (memReadBE_endsWithin hi k addr 0).bind fun v _ => putInt_endsWithin hs d v) (by simp [Instr.faultCodes])
  | loadStr d bs | storeStr d bs => exact .of_complete (putStr_endsWithin hs d bs) (List.Subset.refl _)
  | incInt r | decInt r => exact .of_complete (arith1_endsWithin hs r _) (by simp [Instr.faultCodes])
  | addInt d a b | subInt d a b | mulInt d a b =>
    exact .of_complete (arith2_endsWithin hs (fun x y => hok _) d a b) (by simp [Instr.faultCodes])
  | divInt d a b | modInt d a b =>
    exact .of_complete (arith2_endsWithin hs (fun x y => zeroDivisor_endsWithin y _) d a b)
      (by simp [Instr.faultCodes])
  | printInt r => exact .of_complete ((getInt_endsWithin s r).map fun _ _ => hs) (List.Subset.refl _)
  | printStr r => exact .of_complete ((getStr_endsWithin s r).map fun _ _ => hs) (List.Subset.refl _)
  | random d => exact .of_complete (putInt_endsWithin (s := s.drawn) hs d _) (List.Subset.refl _)
  | jmpInt r => exact .of_complete ((getInt_endsWithin s r).map fun _ _ => hs) (List.Subset.refl _)
  | jmpLe8 c a b v | jmpLe16 c a b v | jmpLe32 c a b v | jmpLe64 c a b v =>
    exact .of_complete (condJump_endsWithin hs (hok _) c a b) (by simp [Instr.faultCodes])
  | jmpLeInt c a b r =>
    exact .of_complete (condJump_endsWithin hs (getInt_endsWithin s r) c a b) (by simp [Instr.faultCodes])
  | mov d r =>
    exact .of_complete ((getAny_endsWithin s r).bind fun v _ => putAny_endsWithin hs d v)
      (by simp [Instr.faultCodes])
  | heap r =>
    exact .of_complete ((getInt_endsWithin s r).bind fun n _ => allocate_endsWithin hs n)
      (by simp [Instr.faultCodes])
  | info d k =>
    exact .of_complete ((infoEntry_endsWithin s k).bind fun v _ => putInt_endsWithin hs d v)
      (by simp [Instr.faultCodes])

/-- Settles O26. -/
theorem faultKindsMatchTheTable : Obligations.FaultKindsMatchTheTable :=
  fun i _ t f hs hi h hf => exec_faultsWithin (State.unfaulted_of_running hs) hi i t f h hf

end Sys2Proof.Machine
end

section
/-! PROOFS of the statements about reset and hazards (70_reset_and_hazards.md): a stuck engine, the host's `load`, and
the debug flag, which every operation of a step carries along unread. -/

namespace Sys2Proof.Machine

/-- Settles O12, by the status `step` branches on first. -/
theorem stepIsStuckUnlessRunning : Obligations.StepIsStuckUnlessRunning :=
  fun s => ⟨fun h => by simp only [step, h], fun _ h => by simp only [step, h]⟩

/-- Settles O58, field by field. -/
theorem loadChangesOnlyItsRows : Obligations.LoadChangesOnlyItsRows :=
  fun s img => ⟨s.load_image img, s.load_pc img, s.load_status img, s.load_regs img, s.load_segments img,
    s.load_cursor img, s.load_tick img, s.load_curOp img, s.load_debug img, s.load_out img⟩

/-! ## What an operation reads does not depend on the debug flag -/

section DebugFlag

variable (s : State) (b : Bool)

@[simp] theorem State.getInt_setDebug (i : Byte) : (s.setDebug b).getInt i = s.getInt i := rfl

@[simp] theorem State.getStr_setDebug (i : Byte) : (s.setDebug b).getStr i = s.getStr i := rfl

@[simp] theorem State.getAny_setDebug (i : Byte) : (s.setDebug b).getAny i = s.getAny i := rfl

@[simp] theorem State.infoEntry_setDebug (k : Byte) : (s.setDebug b).infoEntry k = s.infoEntry k := rfl

@[simp] theorem State.memReadBE_setDebug (n : Nat) (a acc : Word) :
    (s.setDebug b).memReadBE n a acc = s.memReadBE n a acc := by
  induction n generalizing a acc with
  | zero => rfl
  | succ n ih =>
    have hread : (s.setDebug b).memRead a = s.memRead a := State.memRead_congr rfl rfl a
    simp only [State.memReadBE, hread, ih]

/-! ## What an operation computes commutes with `setDebug`; a fault it raises is the same one -/

@[simp] theorem setDebug_map_ok : (·.setDebug b) <$> (.ok s : Except FaultCause State) = .ok (s.setDebug b) := rfl

@[simp] theorem State.putInt_setDebug (i : Byte) (v : Word) :
    (s.setDebug b).putInt i v = (·.setDebug b) <$> s.putInt i v := by
  unfold State.putInt
  split
  · rfl
  · split <;> rfl

@[simp] theorem State.putStr_setDebug (i : Byte) (bs : List Byte) :
    (s.setDebug b).putStr i bs = (·.setDebug b) <$> s.putStr i bs := by
  unfold State.putStr
  split
  · rfl
  · split <;> rfl

@[simp] theorem State.putAny_setDebug (i : Byte) (v : Value) :
    (s.setDebug b).putAny i v = (·.setDebug b) <$> s.putAny i v := by
  unfold State.putAny
  split
  · rfl
  · split <;> rfl

@[simp] theorem State.allocate_setDebug (n : Word) :
    (s.setDebug b).allocate n = (·.setDebug b) <$> s.allocate n := by
  unfold State.allocate State.allocateWith
  rw [State.setDebug_segments, State.setDebug_cursor]
  split <;> rfl

@[simp] theorem State.copyReg_setDebug (d r : Byte) :
    (s.setDebug b).copyReg d r = (·.setDebug b) <$> s.copyReg d r := by
  simp only [State.copyReg, map_bind, State.getAny_setDebug, State.putAny_setDebug]

@[simp] theorem State.arith1_setDebug (r : Byte) (f : Word → Word) :
    (s.setDebug b).arith1 r f = (·.setDebug b) <$> s.arith1 r f := by
  simp only [State.arith1, map_bind, State.getInt_setDebug, State.putInt_setDebug]

@[simp] theorem State.arith2_setDebug (d x y : Byte) (f : Word → Word → Except FaultCause Word) :
    (s.setDebug b).arith2 d x y f = (·.setDebug b) <$> s.arith2 d x y f := by
  simp only [State.arith2, map_bind, State.getInt_setDebug, State.putInt_setDebug]

theorem State.emit_setDebug (bs : List Byte) : (s.setDebug b).emit bs = (s.emit bs).setDebug b := rfl

theorem State.setPc_setDebug (v : Word) : (s.setDebug b).setPc v = (s.setPc v).setDebug b := rfl

@[simp] theorem State.condJump_setDebug (c x y : Byte) (target : Except FaultCause Word) :
    (s.setDebug b).condJump c x y target = (·.setDebug b) <$> s.condJump c x y target := by
  simp only [State.condJump, map_bind, State.getInt_setDebug, State.setPc_setDebug, setDebug_map_ok,
    apply_ite (State.setDebug · b)]

/-- A handler's end: the same next state but for `debug`, or the same fault taken. -/
theorem State.complete_setDebug {r r' : Except FaultCause State} (h : r' = (·.setDebug b) <$> r) :
    (s.setDebug b).complete r' = mapNext (·.setDebug b) (s.complete r) := by
  subst h
  cases r <;> rfl

/-! ## The handlers, the fetch, and the step (R260) -/

/-- In a handler that runs several operations, `map_bind` moves `setDebug` past the reads to the last one. -/
theorem exec_setDebug (i : Instr) : exec i (s.setDebug b) = mapNext (·.setDebug b) (exec i s) := by
  cases i with
  | nop | stop | jmp8 v | jmp16 v | jmp32 v | jmp64 v => rfl
  | loadInt | storeInt | storeInt8 | storeInt16 | storeInt32 | storeInt64 => rfl
  | loadInt8 d v | loadInt16 d v | loadInt32 d v | loadInt64 d v =>
    exact s.complete_setDebug b (s.putInt_setDebug b d _)
  | loadIntMem d a n => exact s.complete_setDebug b (by simp)
  | loadStr d bs | storeStr d bs => exact s.complete_setDebug b (s.putStr_setDebug b d bs)
  | incInt r | decInt r => exact s.complete_setDebug b (s.arith1_setDebug b r _)
  | addInt d x y | subInt d x y | mulInt d x y | divInt d x y | modInt d x y =>
    exact s.complete_setDebug b (s.arith2_setDebug b d x y _)
  | printInt r | printStr r | jmpInt r =>
    exact s.complete_setDebug b (by simp [State.emit_setDebug, State.setPc_setDebug])
  | random d => exact s.drawn.complete_setDebug b (s.drawn.putInt_setDebug b d _)
  | jmpLe8 c x y v | jmpLe16 c x y v | jmpLe32 c x y v | jmpLe64 c x y v | jmpLeInt c x y r =>
    exact s.complete_setDebug b (s.condJump_setDebug b c x y _)
  | mov d r => exact s.complete_setDebug b (s.copyReg_setDebug b d r)
  | heap r => exact s.complete_setDebug b (by simp)
  | info d k => exact s.complete_setDebug b (by simp)

/-- Where a step stands after its fetch, with the debug flag set. -/
def Fetched.setDebug (b : Bool) : Fetched → Fetched
  | .run i s => .run i (s.setDebug b)
  | .done s => .done (s.setDebug b)

theorem State.fetch8_setDebug : (s.setDebug b).fetch8 = Prod.map id (·.setDebug b) <$> s.fetch8 := by
  unfold State.fetch8
  rw [State.setDebug_image, State.setDebug_pc]
  cases s.image with
  | none => rfl
  | some img =>
    dsimp only
    split <;> rfl

theorem State.fetch_setDebug : (s.setDebug b).fetch = s.fetch.setDebug b := by
  have hstream : (s.setDebug b).stream = s.stream := rfl
  unfold State.fetch
  rw [s.fetch8_setDebug b, hstream]
  cases s.fetch8 with
  | error c => rfl
  | ok p => cases decode s.stream <;> rfl

end DebugFlag

/-- Settles O28: the fetch and the handler commute with `setDebug`, and the status that gates them is the same. -/
theorem debugFlagDoesNotInterfere : Obligations.DebugFlagDoesNotInterfere := by
  refine fun s b => ⟨rfl, ?_⟩
  simp only [step, State.setDebug_status, s.fetch_setDebug b]
  cases s.status with
  | halted | faulted f => rfl
  | running =>
    cases s.fetch with
    | run i t => exact exec_setDebug t b i
    | done t => rfl

end Sys2Proof.Machine
end
